-- ==== Sys2Proof/Word.lean ====
section
/-! DEFINITION. The word types of the SHA-256 hashing core (spec/00_scope.md R8, R10, R11). -/

namespace Sys2Proof

/-- `u8`: a message byte, a byte of the pending buffer (R11). -/
abbrev Byte := BitVec 8

/-- `u32`: a word of the hash state, of the schedule, of the constant ROM; a working variable (R11). -/
abbrev Word := BitVec 32

/-- One word of the command channel, 10 bits (30_encoding.md R71). -/
abbrev CommandWord := BitVec 10

/-- A 64-byte block, `blk[0..63]` (41_compress.md R110). The length stands in the type, so the caller violation of
R177 (a block of another size) cannot be written down. -/
abbrev Block := Vector Byte 64

end Sys2Proof
end

