-- ==== Sys2Proof/Syntax.lean ====
section
/-! DEFINITION. The commands of the block, one constructor per row of spec/opcode_table.json (30_encoding.md R73 to R75). -/

namespace Sys2Proof

/-- A command. There is no operand but the message byte of `UPD` (R71), and every byte value is legal (R72). -/
inductive Instr where
  /-- `INIT`: start a session (R73, R130). -/
  | init
  /-- `UPD b`: append one message byte (R74, R131). -/
  | upd (b : Byte)
  /-- `FINAL`: pad, compress, make the digest valid (R75, R150). -/
  | final
  deriving DecidableEq, Repr

/-- What a command word decodes to: a command, or `Reserved` by name (R78). -/
inductive Decoded where
  | command (i : Instr)
  /-- One of the 766 words of R76. -/
  | reserved
  deriving DecidableEq, Repr

end Sys2Proof
end

