-- ==== Sys2Proof/Decode.lean ====
section
/-! DEFINITION. Decoding a command word, total on all 1024 words (30_encoding.md R71 to R79), and the encoder. -/

namespace Sys2Proof

/-- Bits 9:8, the operation select (R71). -/
def opField (w : CommandWord) : BitVec 2 := w.extractLsb' 8 2

/-- Bits 7:0, used as they stand: not extended, scaled or shifted (R71, R72). -/
def dataField (w : CommandWord) : Byte := w.extractLsb' 0 8

/-- R78. It reads the word alone: no `PHASE`, no other state. -/
def decode (w : CommandWord) : Decoded :=
  if opField w = 0b01#2 ∧ dataField w = 0x00#8 then .command .init
  else if opField w = 0b10#2 then .command (.upd (dataField w))
  else if opField w = 0b11#2 ∧ dataField w = 0x00#8 then .command .final
  else .reserved

/-- The word of a command: `op` in bits 9:8, `data` in bits 7:0 (R71, R73 to R75). -/
def encode : Instr → CommandWord
  | .init => 0b01#2 ++ 0x00#8
  | .upd b => 0b10#2 ++ b
  | .final => 0b11#2 ++ 0x00#8

/-- One command is one 10-bit word (R79): an instruction whose bits are `w` is the command word `w`, and there is none
where a bit above bit 9 is set. The table's rows are 10 bits wide, 16 in whole bytes. -/
def decodeTableWord (nbits w : Nat) : Option Instr :=
  if w % 2 ^ nbits < 2 ^ 10 then
    match decode (BitVec.ofNat 10 (w % 2 ^ nbits)) with
    | .command i => some i
    | .reserved => none
  else none

end Sys2Proof
end

