-- ==== Sys2Proof/Config.lean ====
section
/-! DEFINITION. What the spec leaves open: the free values. The block has no configurable parameter (R8) and no value
that an implementation fixes (93_implementation_defined.md, preamble: no behaviour is a `parameter`). The constant
tables `K` and `IV`, which are the same in every instance, stand in Machine/Constants.lean. -/

namespace Sys2Proof

/-- FREE VALUE (notes/assumptions 3). What a word of `W[0..63]` or a working variable `a..h` holds once a command that ran
`TRANSFORM` has completed: "their contents after a command completes, after reset, or after `INIT` are unspecified"
(10_state.md R36; 93_implementation_defined.md U10: any value). Applied to the count of draws alone: equal counts, equal words, in
two instances too. -/
opaque Config.freeWord : Nat → Word

/-- FREE VALUE (notes/assumptions 4). What the host samples on `DIGEST` while `DIGEST_VALID = 0`
(10_state.md R32; 93_implementation_defined.md U6: any value to the host). Applied to the count of draws and to the
number of the sample, so that two samples of one state need not agree; those of
equal count and number do, in two instances too. -/
opaque Config.freeDigest : Nat → Nat → BitVec 256

end Sys2Proof
end

