-- ==== Sys2Proof/Machine/State.lean ====
section
/-! DEFINITION. The state of the block (10_state.md R20 to R39), the reasons a step can stop, the state after reset. -/

namespace Sys2Proof.Machine

/-- The hash state `H[0..7]`, eight 32-bit words under the source's names: `h0` is `H[0]`, the most significant word of
the digest (R20, R21). -/
structure HashState where
  h0 : Word
  h1 : Word
  h2 : Word
  h3 : Word
  h4 : Word
  h5 : Word
  h6 : Word
  h7 : Word
  deriving DecidableEq, Repr

/-- The eight working variables (R24). -/
structure Work where
  a : Word
  b : Word
  c : Word
  d : Word
  e : Word
  f : Word
  g : Word
  h : Word
  deriving DecidableEq, Repr

/-- `PHASE`, the session-lifecycle register (R30). -/
inductive Phase where
  /-- No session: after reset, before any `INIT`. -/
  | none
  /-- A session that has not been finalised. -/
  | active
  /-- `FINAL` has completed. -/
  | spent
  deriving DecidableEq, Repr

/-- One entry of the command channel (30_encoding.md R70; 70_reset_and_hazards.md R205: a run is a sequence of events,
each a command word or a reset). -/
inductive Event where
  /-- A 10-bit command word. -/
  | command (w : CommandWord)
  /-- The reset event, between commands (R190, R192). -/
  | reset
  /-- Two words presented at once. The spec's own channel cannot say it; 93_implementation_defined.md U4 says what a host
  model that can must do with it (60_exceptions.md R176; notes/assumptions 7). -/
  | simultaneous (w₁ w₂ : CommandWord)
  deriving DecidableEq, Repr

/-- The pending buffer's cells, addresses strictly rising; an address without an entry holds no value (20_memory.md R60;
notes/assumptions 2). -/
abbrev Memory := List Host.Cell

/-- Everything the spec gives the block. `DIGEST_VALID` and `DIGEST` are views of `phase` and `hash` and no storage of
their own (R31, R32); `T1`, `T2` and the loop indices are values inside a command (R25, R34); `K` and `IV` are constants
(R27, R39). -/
structure State where
  /-- The MODEL's own: how many free words have been drawn (notes/assumptions 3). -/
  draws : Nat
  /-- `H[0..7]` (R20). -/
  hash : HashState
  /-- `BITLEN`, message bits so far (R28). -/
  bitlen : BitVec 64
  /-- `BUFLEN`, valid bytes of the pending buffer (R29). -/
  buflen : BitVec 8
  /-- `PHASE` (R30). -/
  phase : Phase
  /-- `BUF[0..127]` (R35). -/
  buf : Memory
  /-- `W[0..63]`, the message schedule, transient (R26, R36). -/
  sched : Vector Word 64
  /-- `a..h`, the working variables, transient (R24, R36). -/
  work : Work
  /-- What the host has yet to give the block, the next event first (30_encoding.md R70). -/
  channel : List Event
  deriving DecidableEq, Repr

/-- The model's stops that are no refusal. The block itself raises no exception and reports no error (60_exceptions.md
R170): no constructor here stands for an error the hardware reports. -/
inductive Fault where
  /-- Raised by `memRead` and `memWrite` on an address above 127, which does not exist (00_scope.md R14, 20_memory.md
  R50). No state that meets `MachineInv` reaches it. Safe: the model stops. -/
  | bufferAddress
  deriving DecidableEq, Repr

/-- The reasons a command has no meaning (60_exceptions.md R171, R182). Each is safe: the model declines to say what the
hardware does, and the run ends there (R182: the mark is never cleared). -/
inductive Refusal where
  /-- Raised by an arm of `exec` whose instruction has no meaning in the model. No arm does. Safe. -/
  | notModelled (mnemonic : String)
  /-- `CommandInSpentPhase`: raised by `UPD` and `FINAL` after `FINAL` (R172). Safe. -/
  | commandInSpentPhase
  /-- `CommandWithoutSession`: raised by `UPD` and `FINAL` before the first `INIT` (R173). Safe. -/
  | commandWithoutSession
  /-- `BitLengthOverflow`: raised by the `UPD` that would carry `BITLEN` to `2^64` (R174). Safe. -/
  | bitLengthOverflow
  /-- `ReservedEncoding`: raised by `step` on a reserved command word (R175). Safe. -/
  | reservedEncoding
  /-- `ConcurrentAccess`: raised by `step` on two words presented at once (R176). Safe. -/
  | concurrentAccess
  /-- Raised by `memRead` on a byte that holds no value: at or above `BUFLEN`, or never written (20_memory.md R60,
  10_state.md R38). No state that meets `MachineInv` reaches it. Safe. -/
  | byteHoldsNoValue
  deriving DecidableEq, Repr

/-- The state after reset: `PHASE = NONE` (R38, R190). Every other register is unspecified there, and the value it has
here is the model's (notes/assumptions 1): no command reads one before `INIT` or an earlier step of the same command
has written it. No byte of `BUF` holds a value, and the host has sent nothing. -/
def State.reset : State where
  draws := 0
  hash := ⟨0, 0, 0, 0, 0, 0, 0, 0⟩
  bitlen := 0
  buflen := 0
  phase := .none
  buf := []
  sched := Vector.replicate 64 0
  work := ⟨0, 0, 0, 0, 0, 0, 0, 0⟩
  channel := []

end Sys2Proof.Machine
end

