-- ==== Sys2Proof/Machine/Constants.lean ====
section
/-! DEFINITION. The constant ROM: `IV[0..7]` (10_state.md R22) and `K[0..63]` (40_bitops.md R100, 10_state.md R27), and
the fixed sizes of 00_scope.md R8. The source gives neither table; the spec supplies both from general knowledge
(93_implementation_defined.md G1, G2). -/

namespace Sys2Proof.Machine

/-- `IV[0..7]`, the standard initial constants (R22). -/
def iv : HashState :=
  ⟨0x6a09e667, 0xbb67ae85, 0x3c6ef372, 0xa54ff53a, 0x510e527f, 0x9b05688c, 0x1f83d9ab, 0x5be0cd19⟩

/-- The eight lines of the table of R100 as the spec prints them, a line as one number, its first word the most
significant. -/
def constantLines : Vector (BitVec 256) 8 := #v[
  0x428a2f98_71374491_b5c0fbcf_e9b5dba5_3956c25b_59f111f1_923f82a4_ab1c5ed5,
  0xd807aa98_12835b01_243185be_550c7dc3_72be5d74_80deb1fe_9bdc06a7_c19bf174,
  0xe49b69c1_efbe4786_0fc19dc6_240ca1cc_2de92c6f_4a7484aa_5cb0a9dc_76f988da,
  0x983e5152_a831c66d_b00327c8_bf597fc7_c6e00bf3_d5a79147_06ca6351_14292967,
  0x27b70a85_2e1b2138_4d2c6dfc_53380d13_650a7354_766a0abb_81c2c92e_92722c85,
  0xa2bfe8a1_a81a664b_c24b8b70_c76c51a3_d192e819_d6990624_f40e3585_106aa070,
  0x19a4c116_1e376c08_2748774c_34b0bcb5_391c0cb3_4ed8aa4a_5b9cca4f_682e6ff3,
  0x748f82ee_78a5636f_84c87814_8cc70208_90befffa_a4506ceb_bef9a3f7_c67178f2]

/-- `K[0..63]`, the round constants, read-only and indexed by the round number alone (R27, R100): `K[t]` is word
`t mod 8`, from the left, of line `t / 8`. -/
def roundConstants : Vector Word 64 :=
  Vector.ofFn fun t => constantLines[t.val / 8].extractLsb' (32 * (7 - t.val % 8)) 32

/-- The pending buffer's capacity in bytes, two block-widths (R8, R35). -/
def bufCapacity : Nat := 128

/-- A block in bytes (R8). -/
def blockBytes : Nat := 64

/-- Where the length suffix starts inside a block: the padding residue (R8, 43_finalize.md R152). -/
def suffixOffset : Nat := 56

/-- The largest `BITLEN` an `UPD` may meet, `2^64 - 16` (40_bitops.md R91, 42_ingest.md R131). -/
def lastBitlen : Nat := 2 ^ 64 - 16

end Sys2Proof.Machine
end

