-- ==== Sys2Proof/Machine/Ops.lean ====
section
/-! DEFINITION. The named operations over the pending buffer and the registers. The block takes no exception and returns
from none (60_exceptions.md R170, R180, R181), so there is no operation for either. -/

namespace Sys2Proof.Machine

/-- What an operation of the block answers: a value, a fault or a refusal. -/
abbrev Answer (α : Type) := Host.Outcome α Fault Refusal

/-- Statements of a command run in order; one that stops ends the command (00_scope.md R15, R16). -/
def andThen {α β : Type} : Answer α → (α → Answer β) → Answer β
  | .next a, k => k a
  | .fault f, _ => .fault f
  | .refused r, _ => .refused r

/-- The cells are in canonical form: addresses strictly rising. -/
abbrev Memory.wf (m : Memory) : Prop := m.Pairwise fun x y => x.1 < y.1

/-- The byte at an address; `none` where nothing has been written since reset. -/
def Memory.read : Memory → Nat → Option Byte
  | [], _ => none
  | (a', b) :: m, a => if a' = a then some b else Memory.read m a

/-- Writes one byte, keeping the addresses rising. -/
def Memory.write : Memory → Nat → Byte → Memory
  | [], a, b => [(a, b)]
  | (a', b') :: m, a, b =>
    if a < a' then (a, b) :: (a', b') :: m
    else if a' = a then (a, b) :: m
    else (a', b') :: Memory.write m a b

/-- Writes a list of bytes at rising addresses from `a`. -/
def Memory.writeList : Memory → Nat → List Byte → Memory
  | m, _, [] => m
  | m, a, b :: bs => Memory.writeList (Memory.write m a b) (a + 1) bs

/-- The `n` bytes from `addr` on, in address order, if each has been written. -/
def Memory.readVector (m : Memory) (addr : Nat) : (n : Nat) → Option (Vector Byte n)
  | 0 => some #v[]
  | n + 1 =>
    match Memory.readVector m addr n, Memory.read m (addr + n) with
    | some v, some b => some (v.push b)
    | _, _ => none

/-- `MemRead(addr, n)` (00_scope.md R14). The address must exist, and each byte must hold a value: a byte at or above
`BUFLEN` holds none, and reading one is a refusal (20_memory.md R60). -/
def memRead (addr n : Nat) (s : State) : Answer (Vector Byte n) :=
  if bufCapacity < addr + n then .fault .bufferAddress
  else if s.buflen.toNat < addr + n then .refused .byteHoldsNoValue
  else
    match Memory.readVector s.buf addr n with
    | some v => .next v
    | none => .refused .byteHoldsNoValue

/-- `MemWrite(addr, n, v)` for the list `v` of `n` bytes (00_scope.md R14). -/
def memWrite (addr : Nat) (v : List Byte) (s : State) : Answer State :=
  if bufCapacity < addr + v.length then .fault .bufferAddress
  else .next { s with buf := Memory.writeList s.buf addr v }

/-- `MemWrite(BUFLEN, n, v); BUFLEN <- BUFLEN + n`: how every byte enters the buffer (20_memory.md R51, R57). -/
def appendBytes (v : List Byte) (s : State) : Answer State :=
  andThen (memWrite s.buflen.toNat v s) fun t =>
    .next { t with buflen := t.buflen + BitVec.ofNat 8 v.length }

/-- What `UPD` and `FINAL` ask first: they are defined in `PHASE = ACTIVE` alone (42_ingest.md R131, 43_finalize.md R150),
and the refusal says which other phase holds (60_exceptions.md R172, R173). -/
def inSession (s : State) (k : State → Answer State) : Answer State :=
  match s.phase with
  | .none => .refused .commandWithoutSession
  | .spent => .refused .commandInSpentPhase
  | .active => k s

/-- 64 fresh free words, for `W[0..63]`. Irreducible, so that unification never opens it. -/
@[irreducible] def freeSchedule (d : Nat) : Vector Word 64 := Vector.ofFn fun t => Config.freeWord (d + t.val)

/-- Eight fresh free words, for `a..h`. -/
@[irreducible] def freeWork (d : Nat) : Work :=
  ⟨Config.freeWord (d + 64), Config.freeWord (d + 65), Config.freeWord (d + 66), Config.freeWord (d + 67),
    Config.freeWord (d + 68), Config.freeWord (d + 69), Config.freeWord (d + 70), Config.freeWord (d + 71)⟩

/-- The end of a command that ran `TRANSFORM`: `W[0..63]` and `a..h` hold unspecified values from here on (10_state.md
R36, 41_compress.md R121), each of the 72 words a fresh free value. DESIGN CHOICE (notes/assumptions 3): a free value is
keyed by the count of draws alone, so that two states of equal count, two instances among them (60_exceptions.md R186),
draw the same words. Unsafe for a claim that compares the `W` or `a..h` of two states, safe for any other. -/
def releaseTransients (s : State) : State :=
  { s with sched := freeSchedule s.draws, work := freeWork s.draws, draws := s.draws + 72 }

/-- The reset event (70_reset_and_hazards.md R190): whatever the session had reached, the block is in the state after
reset. What the host has yet to send is not the block's, and stays; so does the count of free values drawn. -/
def resetEvent (s : State) : State :=
  { State.reset with channel := s.channel, draws := s.draws }

end Sys2Proof.Machine
end

