-- ==== Sys2Proof/Machine/Channel.lean ====
section
/-! DEFINITION. The command channel (30_encoding.md R70): an ordered, lossless list of events, each consumed once. The
block has no program counter and fetches nothing (10_state.md R33); taking the channel's head is what stands for a
fetch. -/

namespace Sys2Proof.Machine

/-- Takes the next event from the channel; `none` while the host has sent nothing (R70, R191). -/
def takeEvent (s : State) : Option (Event × State) :=
  match s.channel with
  | [] => none
  | e :: es => some (e, { s with channel := es })

/-- The word `w` put at the head of the channel, so that the block takes it next. -/
def pushWord (w : CommandWord) (s : State) : State := { s with channel := .command w :: s.channel }

/-- The events of a run of commands (30_encoding.md R70). -/
def channelOf (is : List Instr) : List Event := is.map fun i => .command (encode i)

end Sys2Proof.Machine
end

