-- ==== Sys2Proof/Machine/Bits.lean ====
section
/-! DEFINITION. The bit-operations layer: pure functions on 32-bit words, with no state, no flag and no error
(40_bitops.md R90 to R99, R103, R104). -/

namespace Sys2Proof.Machine

/-- `ADD32`: the low 32 bits of the integer sum (R90). -/
def add32 (x y : Word) : Word := BitVec.ofNat 32 (x.toNat + y.toNat)

/-- A sum of several words, each addition an `ADD32` (R90). -/
def sum32 (xs : List Word) : Word := xs.foldl add32 0

/-- `ROTR(x, n)` for `1 ≤ n ≤ 31` (R92). Outside that domain, which no rule uses, it is the rotation modulo 32 that
93_implementation_defined.md U5 allows. -/
def rotr (x : Word) (n : Nat) : Word := (x >>> (n % 32)) ||| (x <<< (32 - n % 32))

/-- `SHR(x, n)`: logical right shift, zeros entering at the top (R93); zero from `n = 32` on, which no rule uses (U5). -/
def shr (x : Word) (n : Nat) : Word := x >>> n

/-- `CH`, "choose" (R94). -/
def ch (x y z : Word) : Word := (x &&& y) ^^^ (~~~x &&& z)

/-- `MAJ`, "majority" (R95). -/
def maj (x y z : Word) : Word := (x &&& y) ^^^ (x &&& z) ^^^ (y &&& z)

/-- `EP0` (R96). -/
def ep0 (x : Word) : Word := rotr x 2 ^^^ rotr x 13 ^^^ rotr x 22

/-- `EP1` (R97). -/
def ep1 (x : Word) : Word := rotr x 6 ^^^ rotr x 11 ^^^ rotr x 25

/-- `SIG0`: its third term is a shift (R98). -/
def sig0 (x : Word) : Word := rotr x 7 ^^^ rotr x 18 ^^^ shr x 3

/-- `SIG1`: its third term is a shift (R99). -/
def sig1 (x : Word) : Word := rotr x 17 ^^^ rotr x 19 ^^^ shr x 10

end Sys2Proof.Machine
end

