-- ==== Sys2Proof/Machine/Operands.lean ====
section
/-! DEFINITION. Bytes and words, most significant byte first throughout (40_bitops.md R101, R102, R105; 20_memory.md
R54). The one operand a command carries, the byte of `UPD`, is used as it stands (30_encoding.md R72) and needs no
assembly. -/

namespace Sys2Proof.Machine

/-- `BE32(b0, b1, b2, b3)`: `b0` is the most significant byte (R101). -/
def be32 (b0 b1 b2 b3 : Byte) : Word := b0 ++ b1 ++ b2 ++ b3

/-- `BE32bytes(w)`, the inverse of `BE32` (R105). -/
def be32bytes (w : Word) : List Byte :=
  [w.extractLsb' 24 8, w.extractLsb' 16 8, w.extractLsb' 8 8, w.extractLsb' 0 8]

/-- `BE64bytes(v)`, the 8-byte big-endian encoding (R102). -/
def be64bytes (v : BitVec 64) : List Byte :=
  [v.extractLsb' 56 8, v.extractLsb' 48 8, v.extractLsb' 40 8, v.extractLsb' 32 8,
    v.extractLsb' 24 8, v.extractLsb' 16 8, v.extractLsb' 8 8, v.extractLsb' 0 8]

end Sys2Proof.Machine
end

