-- ==== Sys2Proof/Machine/Compress.lean ====
section
/-! DEFINITION. The compression core (41_compress.md R110 to R121): `TRANSFORM` on the state, in its four steps, and
`COMPRESS`, the pure function the steps compute. The loops are irreducible: Lean's unifier would otherwise run them. -/

namespace Sys2Proof.Machine

/-! The steps on the storage each of them works on. -/

/-- `W[t] <- BE32(blk[4t], blk[4t+1], blk[4t+2], blk[4t+3])` (R111). -/
def loadWord (blk : Block) (w : Vector Word 64) (t : Fin 16) : Vector Word 64 :=
  w.set t.val (be32 blk[4 * t.val] blk[4 * t.val + 1] blk[4 * t.val + 2] blk[4 * t.val + 3])

/-- Words 0 to 15 of the schedule (R111). -/
@[irreducible] def loadSchedule (blk : Block) (w : Vector Word 64) : Vector Word 64 :=
  (List.finRange 16).foldl (loadWord blk) w

/-- Expansion step `t = j + 16`: `W[t] <- SIG1(W[t-2]) + W[t-7] + SIG0(W[t-15]) + W[t-16]` (R112). -/
def expandWord (w : Vector Word 64) (j : Fin 48) : Vector Word 64 :=
  w.set (j.val + 16) (sum32 [sig1 w[j.val + 14], w[j.val + 9], sig0 w[j.val + 1], w[j.val]])

/-- Words 16 to 63, upward (R112). -/
@[irreducible] def expandSchedule (w : Vector Word 64) : Vector Word 64 :=
  (List.finRange 48).foldl expandWord w

/-- `a..h` from `H[0..7]`, in that order (R113). -/
def workOf (H : HashState) : Work := ⟨H.h0, H.h1, H.h2, H.h3, H.h4, H.h5, H.h6, H.h7⟩

/-- `ROUND(t)` on the working variables, all eight assigned at once (R114). -/
@[irreducible] def roundWork (w : Vector Word 64) (v : Work) (t : Fin 64) : Work :=
  let t1 := sum32 [v.h, ep1 v.e, ch v.e v.f v.g, roundConstants[t.val], w[t.val]]
  let t2 := add32 (ep0 v.a) (maj v.a v.b v.c)
  { a := add32 t1 t2, b := v.a, c := v.b, d := v.c, e := add32 v.d t1, f := v.e, g := v.f, h := v.g }

/-- Each final working variable added onto its hash word, modulo `2^32` (R115). -/
def addWork (H : HashState) (v : Work) : HashState :=
  ⟨add32 H.h0 v.a, add32 H.h1 v.b, add32 H.h2 v.c, add32 H.h3 v.d,
    add32 H.h4 v.e, add32 H.h5 v.f, add32 H.h6 v.g, add32 H.h7 v.h⟩

/-! The steps on the state. -/

/-- `SCHED_LOAD(blk)` (R111). -/
def schedLoad (blk : Block) (s : State) : State := { s with sched := loadSchedule blk s.sched }

/-- `SCHED_EXPAND` (R112). -/
def schedExpand (s : State) : State := { s with sched := expandSchedule s.sched }

/-- `WORK_INIT` (R113). -/
def workInit (s : State) : State := { s with work := workOf s.hash }

/-- `ROUND(t)` (R114). -/
def roundStep (s : State) (t : Fin 64) : State := { s with work := roundWork s.sched s.work t }

/-- The 64 rounds in order (R119). -/
@[irreducible] def rounds (s : State) : State := (List.finRange 64).foldl roundStep s

/-- `MIXIN` (R115). -/
def mixIn (s : State) : State := { s with hash := addWork s.hash s.work }

/-- `TRANSFORM(blk)` (R110, R116). -/
@[irreducible] def transform (blk : Block) (s : State) : State :=
  mixIn (rounds (workInit (schedExpand (schedLoad blk s))))

/-- `TRANSFORM(MemRead(base, 64))`: the block is 64 consecutive bytes of the buffer (20_memory.md R51, R56). -/
def transformAt (base : Nat) (s : State) : Answer State :=
  andThen (memRead base blockBytes s) fun blk => .next (transform blk s)

/-! The pure function. -/

/-- The 64 words of a block's schedule; what the storage held before does not matter, since all 64 are written. -/
@[irreducible] def schedule (blk : Block) : Vector Word 64 := expandSchedule (loadSchedule blk (Vector.replicate 64 0))

/-- `COMPRESS(H, blk)` (R116). -/
@[irreducible] def compress (H : HashState) (blk : Block) : HashState :=
  addWork H ((List.finRange 64).foldl (roundWork (schedule blk)) (workOf H))

end Sys2Proof.Machine
end

