-- ==== Sys2Proof/Machine/Finalize.lean ====
section
/-! DEFINITION. `FINAL` (43_finalize.md R150 to R155). -/

namespace Sys2Proof.Machine

/-- The padding marker byte (R151). -/
def markerByte : Byte := 0x80#8

/-- The padding fill byte (R152). -/
def fillByte : Byte := 0x00#8

/-- Step 2 (R152): zero bytes until `BUFLEN mod 64 = 56`, the test before each. At most 63 bytes lie between a length and
the next one the test accepts (70_reset_and_hazards.md R204), so a fuel of 63 never cuts the loop short. -/
def zeroFill : Nat → State → Answer State
  | 0, s => .next s
  | fuel + 1, s =>
    if s.buflen.toNat % blockBytes = suffixOffset then .next s
    else andThen (appendBytes [fillByte] s) (zeroFill fuel)

/-- Steps 1 to 3 (R151 to R153): marker, zero fill, the big-endian bit count. -/
def padBuffer (s : State) : Answer State :=
  andThen (appendBytes [markerByte] s) fun s₁ =>
    andThen (zeroFill 63 s₁) fun s₂ => appendBytes (be64bytes s₂.bitlen) s₂

/-- Step 4 (R154): the first block, then the second if there is one, each on the `H` the one before produced. -/
def flushPadded (s : State) : Answer State :=
  andThen (transformAt 0 s) fun t =>
    if t.buflen.toNat = bufCapacity then transformAt blockBytes t else .next t

/-- `FINAL` (R150): pad, flush, empty the buffer, and as the last step `PHASE <- SPENT`, which makes the digest valid
(R155). `BITLEN` keeps its value. -/
def execFinal (s : State) : Answer State :=
  inSession s fun s =>
    andThen (padBuffer s) fun t =>
      andThen (flushPadded t) fun u =>
        .next (releaseTransients { u with buflen := 0, phase := .spent })

end Sys2Proof.Machine
end

