-- ==== Sys2Proof/Machine/Ingest.lean ====
section
/-! DEFINITION. `UPD` (42_ingest.md R131). -/

namespace Sys2Proof.Machine

/-- `if BUFLEN = 64: TRANSFORM(MemRead(0, 64)); BUFLEN <- 0` (R131): the flush of a full block, inside the command that
delivers its last byte. -/
def flushFull (s : State) : Answer State :=
  if s.buflen.toNat = blockBytes then
    andThen (transformAt 0 s) fun t => .next (releaseTransients { t with buflen := 0 })
  else .next s

/-- `UPD b` (R131): append, count, flush. Refused outside a session, and where `BITLEN + 8` would reach `2^64` (R174); the
phase is asked first (60_exceptions.md R179). -/
def execUpd (b : Byte) (s : State) : Answer State :=
  inSession s fun s =>
    if s.bitlen.toNat ≤ lastBitlen then
      andThen (appendBytes [b] s) fun t => flushFull { t with bitlen := t.bitlen + 8 }
    else .refused .bitLengthOverflow

end Sys2Proof.Machine
end

