-- ==== Sys2Proof/Machine/Session.lean ====
section
/-! DEFINITION. `INIT` (42_ingest.md R130). -/

namespace Sys2Proof.Machine

/-- `INIT`: a fresh session in every `PHASE`, whatever the state held. It writes neither `BUF` nor `W` nor `a..h` (R130). -/
def execInit (s : State) : Answer State :=
  .next { s with hash := iv, bitlen := 0, buflen := 0, phase := .active }

end Sys2Proof.Machine
end

