-- ==== Sys2Proof/Machine/Step.lean ====
section
/-! DEFINITION. One step: the block takes one event from the channel and executes it to completion (30_encoding.md R70,
20_memory.md R62). -/

namespace Sys2Proof.Machine

/-- One step. A reserved word is refused before any question of phase or value (60_exceptions.md R175, R179). With nothing
on the channel the block waits, unchanged (70_reset_and_hazards.md R191, R205; notes/assumptions 6). DESIGN CHOICE
(notes/assumptions 7): two words presented at once are refused for that before anything is asked of either, be they
reserved or out of phase; R179 ranks decode, phase and value and does not say where `ConcurrentAccess` stands. Safe: the
step is refused either way. -/
def step (s : State) : Host.Outcome State Fault Refusal :=
  match takeEvent s with
  | none => .next s
  | some (.command w, t) =>
    match decode w with
    | .command i => exec i t
    | .reserved => .refused .reservedEncoding
  | some (.reset, t) => .next (resetEvent t)
  | some (.simultaneous _ _, _) => .refused .concurrentAccess

/-- The command whose bits are `w` put where the next step takes it: at the head of the channel. A command is 10 bits, and
a bit above them has no place there (30_encoding.md R71, R79). -/
def State.withFetchWord (s : State) (nbits w : Nat) : State :=
  pushWord (BitVec.ofNat 10 (w % 2 ^ nbits)) s

end Sys2Proof.Machine
end

