-- ==== Sys2Proof/Machine/Pseudo.lean ====
section
/-! DEFINITION. The pseudo-commands and what they expand to (30_encoding.md R82, R83). -/

namespace Sys2Proof.Machine

/-- `UPDATE c`: one `UPD` for each byte, in order; the empty chunk is no command at all (R82). -/
def expandUpdate (c : List Byte) : List Instr := c.map .upd

/-- A sequence of `UPDATE` chunks (R82). -/
def expandChunks (cs : List (List Byte)) : List Instr := cs.flatMap expandUpdate

/-- `HASH m`: `INIT; UPDATE m; FINAL` (R83). -/
def expandHash (m : List Byte) : List Instr := .init :: (expandUpdate m ++ [.final])

end Sys2Proof.Machine
end

