-- ==== Sys2Proof/Machine/Assembler.lean ====
section
/-! DEFINITION. The textual form of a command sequence (30_encoding.md R81 to R83): one command a line, a comment from `;`
to the end of the line, mnemonics in upper case. What R81 and R82 leave open of the form (blanks, what ends a line, the
separator inside brackets, the characters of a string) is notes/assumptions 9. -/

namespace Sys2Proof.Machine

/-- Drops leading blanks: spaces and tabs. -/
def skipBlanks (cs : List Char) : List Char := cs.dropWhile fun c => c = ' ' ∨ c = '\t'

/-- Nothing but blanks and perhaps a comment is left of the line. That a comment runs from `;` to the end of the line is
R81's. DESIGN CHOICE (notes/assumptions 9): blanks may stand after a complete command, before the line's end or its
comment, and a comment may follow a command with no blank between. -/
def atLineEnd (cs : List Char) : Bool :=
  match skipBlanks cs with
  | [] => true
  | c :: _ => c == ';'

/-- The value of a hexadecimal digit. -/
def hexValue (c : Char) : Option Nat :=
  if '0' ≤ c ∧ c ≤ '9' then some (c.toNat - 0x30)
  else if 'a' ≤ c ∧ c ≤ 'f' then some (c.toNat - 0x61 + 10)
  else if 'A' ≤ c ∧ c ≤ 'F' then some (c.toNat - 0x41 + 10)
  else none

/-- A printable ASCII character: codes 20 to 7e in hexadecimal. -/
def isPrintable (c : Char) : Bool := 0x20 ≤ c.toNat && c.toNat ≤ 0x7e

/-- The code of a character (R81, 93_implementation_defined.md G4). -/
def charByte (c : Char) : Byte := BitVec.ofNat 8 c.toNat

/-- A decimal number 0..255: the digits up to the first character that is none (R81). -/
def parseDecimal (cs : List Char) : Option (Byte × List Char) :=
  let ds := cs.takeWhile Char.isDigit
  let v := ds.foldl (fun n d => 10 * n + (d.toNat - 0x30)) 0
  if ds = [] ∨ 255 < v then none else some (BitVec.ofNat 8 v, cs.dropWhile Char.isDigit)

/-- A byte operand: `0x` and two hexadecimal digits, a decimal number, or a quoted printable character (R81). -/
def parseByte : List Char → Option (Byte × List Char)
  | '0' :: 'x' :: hi :: lo :: cs =>
    match hexValue hi, hexValue lo with
    | some h, some l => some (BitVec.ofNat 8 (16 * h + l), cs)
    | _, _ => none
  | '\'' :: c :: '\'' :: cs => if isPrintable c then some (charByte c, cs) else none
  | cs => parseDecimal cs

/-- The bytes of a bracketed list, after `[`: byte operands separated by commas, up to `]` (R82). -/
def parseListTail : Nat → List Char → Option (List Byte × List Char)
  | 0, _ => none
  | fuel + 1, cs =>
    match parseByte (skipBlanks cs) with
    | none => none
    | some (b, cs') =>
      match skipBlanks cs' with
      | ']' :: r => some ([b], r)
      | ',' :: r => (parseListTail fuel r).map fun p => (b :: p.1, p.2)
      | _ => none

/-- Any ASCII character. -/
def isAscii (c : Char) : Bool := c.toNat < 0x80

/-- The bytes of a quoted string, after the opening quote: each character its code, no terminator (R82). DESIGN CHOICE
(notes/assumptions 9): every ASCII character but the double quote may stand in it, a tab or another control character
too, and the first double quote ends it. Safe or unsafe as entry 9 says. -/
def parseStringTail : List Char → Option (List Byte × List Char)
  | [] => none
  | '\x22' :: cs => some ([], cs)
  | c :: cs => if isAscii c then (parseStringTail cs).map fun p => (charByte c :: p.1, p.2) else none

/-- A chunk operand: a double-quoted ASCII string or a list of byte values in brackets (R82). -/
def parseBytes : List Char → Option (List Byte × List Char)
  | '\x22' :: cs => parseStringTail cs
  | '[' :: cs =>
    match skipBlanks cs with
    | ']' :: r => some ([], r)
    | _ => parseListTail cs.length cs
  | _ => none

/-- A parsed operand with nothing after it on the line, turned into commands. -/
def finishLine {α : Type} (f : α → List Instr) : Option (α × List Char) → Option (List Instr)
  | some (x, cs) => if atLineEnd cs then some (f x) else none
  | none => none

/-- One line: a command or a pseudo-command (R81 to R83), or no command (an empty line, a comment). DESIGN CHOICE
(notes/assumptions 9): a line may hold no command; a mnemonic is the longest run of letters, and what follows it need not
be set off by a blank. -/
def assembleLine (line : List Char) : Option (List Instr) :=
  let cs := skipBlanks line
  if atLineEnd cs then some []
  else
    let name := cs.takeWhile Char.isAlpha
    let rest := cs.dropWhile Char.isAlpha
    let arg := skipBlanks rest
    if name = ['I', 'N', 'I', 'T'] then finishLine (fun _ => [.init]) (some ((), rest))
    else if name = ['F', 'I', 'N', 'A', 'L'] then finishLine (fun _ => [.final]) (some ((), rest))
    else if name = ['U', 'P', 'D'] then finishLine (fun b => [.upd b]) (parseByte arg)
    else if name = ['U', 'P', 'D', 'A', 'T', 'E'] then finishLine expandUpdate (parseBytes arg)
    else if name = ['H', 'A', 'S', 'H'] then finishLine expandHash (parseBytes arg)
    else none

/-- The lines of a text. DESIGN CHOICE (notes/assumptions 9): the newline character alone ends a line, and a carriage
return is no blank, so that a command line that ends in both is none of the forms unless a comment stands before it. -/
def splitLines : List Char → List (List Char)
  | [] => [[]]
  | c :: cs =>
    match c == '\n', splitLines cs with
    | true, ls => [] :: ls
    | false, l :: ls => (c :: l) :: ls
    | false, [] => [[c]]

/-- The commands of a text, one command a line (R81); `none` where a line is none of the forms. -/
def assemble (text : List Char) : Option (List Instr) :=
  ((splitLines text).mapM assembleLine).map List.flatten

end Sys2Proof.Machine
end

