-- ==== Sys2Proof/Machine/Instances.lean ====
section
/-! DEFINITION. Several instances of the block: the product of independent models (60_exceptions.md R186). Each instance
has a run of its own, and a refusal is the mark of that run alone (R182, 70_reset_and_hazards.md R205). -/

namespace Sys2Proof.Machine

/-- A bank of `n` instances: where the run of each stands, a state or the mark it has met. -/
abbrev Bank (n : Nat) := Vector (Answer State) n

/-- The instances before any step. -/
def Bank.start {n : Nat} (states : Vector State n) : Bank n := states.map .next

/-- Instance `k` takes one step; the others are not touched, whatever it meets: the instances share no state (R186). A run
that has been refused stays so. -/
def stepInstance {n : Nat} (bank : Bank n) (k : Fin n) : Bank n := bank.set k.val (andThen bank[k.val] step)

/-- The instances stepped in the order a schedule names them. -/
def runInstances {n : Nat} (schedule : List (Fin n)) (bank : Bank n) : Bank n := schedule.foldl stepInstance bank

end Sys2Proof.Machine
end

