-- ==== Sys2Proof/Machine/Flags.lean ====
section
/-! DEFINITION. The status the block shows: `DIGEST_VALID`, its only flag (10_state.md R31), and the coding of `PHASE`
(R30). There is no carry, zero, overflow or sign flag: every word addition wraps silently (R31, 40_bitops.md R90). -/

namespace Sys2Proof.Machine

/-- The 2-bit coding of `PHASE`; `0b11` never occurs (R30). -/
def phaseBits : Phase → BitVec 2
  | .none => 0b00#2
  | .active => 0b01#2
  | .spent => 0b10#2

/-- `DIGEST_VALID`: 1 exactly when `PHASE = SPENT` (R31). -/
def State.digestValid (s : State) : Bool :=
  match s.phase with
  | .none => false
  | .active => false
  | .spent => true

end Sys2Proof.Machine
end

