-- ==== Sys2Proof/Machine/Digest.lean ====
section
/-! DEFINITION. The digest and its renderings (10_state.md R32, 43_finalize.md R155 to R157, 40_bitops.md R106). -/

namespace Sys2Proof.Machine

/-- `DIGEST = H[0] ‖ .. ‖ H[7]`, `H[0]` in bits 255:224 (R32). -/
def digestOf (H : HashState) : BitVec 256 :=
  H.h0 ++ H.h1 ++ H.h2 ++ H.h3 ++ H.h4 ++ H.h5 ++ H.h6 ++ H.h7

/-- What the host's `n`-th sample of the `DIGEST` output gives: the digest while `DIGEST_VALID = 1`, and no defined value
at any other time (R32; 93_implementation_defined.md U6; notes/assumptions 4). Sampling changes nothing (20_memory.md
R58), so it is no step. -/
def State.sampleDigest (s : State) (n : Nat) : BitVec 256 :=
  if s.digestValid then digestOf s.hash else Config.freeDigest s.draws n

/-- What can be observed of the block between commands: `DIGEST_VALID`, and `DIGEST` where it is valid
(70_reset_and_hazards.md R205). -/
def State.observe (s : State) : Bool × Option (BitVec 256) :=
  (s.digestValid, if s.digestValid then some (digestOf s.hash) else none)

/-- The eight hash words, `H[0]` first. -/
def hashWords (H : HashState) : List Word := [H.h0, H.h1, H.h2, H.h3, H.h4, H.h5, H.h6, H.h7]

/-- `DIGEST_BYTES`, 32 bytes (R156). -/
def digestBytes (H : HashState) : List Byte := (hashWords H).flatMap be32bytes

/-- The lowercase hexadecimal digit of a nibble, by its ASCII code (R106). -/
def hexDigit (n : BitVec 4) : Char :=
  if n.toNat < 10 then Char.ofNat (0x30 + n.toNat) else Char.ofNat (0x61 + (n.toNat - 10))

/-- `HEX8(w)`: 8 characters, the most significant nibble first, leading zeros kept (R106). -/
def hex8 (w : Word) : List Char :=
  [hexDigit (w.extractLsb' 28 4), hexDigit (w.extractLsb' 24 4), hexDigit (w.extractLsb' 20 4),
    hexDigit (w.extractLsb' 16 4), hexDigit (w.extractLsb' 12 4), hexDigit (w.extractLsb' 8 4),
    hexDigit (w.extractLsb' 4 4), hexDigit (w.extractLsb' 0 4)]

/-- `DIGEST_HEX`, 64 characters (R157). -/
def digestHex (H : HashState) : List Char := (hashWords H).flatMap hex8

/-- A character of `DIGEST_HEX` as a byte, its ASCII code (R106). -/
def asciiByte (c : Char) : Byte := BitVec.ofNat 8 c.toNat

end Sys2Proof.Machine
end

