-- ==== Sys2Proof/Machine/Hash.lean ====
section
/-! DEFINITION. The whole hash in closed form (43_finalize.md R160, R161; 42_ingest.md R136). -/

namespace Sys2Proof.Machine

/-- `z = (55 - n) mod 64`, the non-negative remainder: the zero bytes of the padding of `n` message bytes (R160). -/
def padZeros (n : Nat) : Nat := ((55 - (n : Int)) % 64).toNat

/-- `PAD(m)` (R160), which the spec gives for `8n < 2^64`. DESIGN CHOICE (notes/assumptions 19): the function is total, and
for a longer message its last 8 bytes are the bit count modulo `2^64`. Unsafe for a claim about such a message. -/
def pad (m : List Byte) : List Byte :=
  m ++ [0x80#8] ++ List.replicate (padZeros m.length) 0x00#8 ++ be64bytes (BitVec.ofNat 64 (8 * m.length))

/-- The 64 bytes of a list from index `o` on; used where the list has them. A byte the list has not is 0 here, which
nothing rests on (notes/assumptions 19). -/
def blockAt (l : List Byte) (o : Nat) : Block := Vector.ofFn fun i => l.getD (o + i.val) 0

/-- The consecutive 64-byte blocks of a list, as many as are complete. -/
def blocksOf (l : List Byte) : List Block := (List.range (l.length / 64)).map fun k => blockAt l (64 * k)

/-- `COMPRESS` block after block, each on the state the one before produced (41_compress.md R117). -/
def compressBlocks (H : HashState) (bs : List Block) : HashState := bs.foldl compress H

/-- `SHA256(m)` (R161), for `8n < 2^64` as `PAD(m)` is; of a longer message it is the model's (notes/assumptions 19). -/
def sha256 (m : List Byte) : HashState := compressBlocks iv (blocksOf (pad m))

/-- How often `TRANSFORM` runs in a whole session of `n` message bytes (R136). -/
def transformCount (n : Nat) : Nat := (n + 8) / 64 + 1

end Sys2Proof.Machine
end

