-- ==== Sys2Proof/WellFormed.lean ====
section
/-! DEFINITION. What is well formed: a command, a command word, a sequence of commands. -/

namespace Sys2Proof

/-- Every operand of a command is in range by its type: `b` is a `u8`, and all 256 values are legal (30_encoding.md R72). -/
def Instr.wf : Instr → Bool
  | .init => true
  | .upd _ => true
  | .final => true

/-- The word is one of the 258 the host may send (70_reset_and_hazards.md R201). -/
def wordWf (w : CommandWord) : Bool :=
  match decode w with
  | .command i => i.wf
  | .reserved => false

/-- Where a sequence of commands stands: outside a session, or in one that has taken `n` bytes. -/
inductive SessionPoint where
  | outside
  | inside (n : Nat)
  deriving DecidableEq, Repr

/-- One command of the regular expression `(INIT UPD* (FINAL)?)*` of R193, the sessions restricted to fewer than
`2^61` `UPD` commands each (R193, R197). -/
def SessionPoint.next : SessionPoint → Instr → Option SessionPoint
  | _, .init => some (.inside 0)
  | .outside, .upd _ => none
  | .inside n, .upd _ => if n + 1 < 2 ^ 61 then some (.inside (n + 1)) else none
  | .outside, .final => none
  | .inside _, .final => some .outside

/-- The sequence `is` may follow the point `p`. -/
def sessionsFrom : SessionPoint → List Instr → Bool
  | _, [] => true
  | p, i :: is =>
    match p.next i with
    | some q => i.wf && sessionsFrom q is
    | none => false

/-- A defined run after reset, as a sequence of commands (R193). -/
def sessionsWf (is : List Instr) : Bool := sessionsFrom .outside is

end Sys2Proof
end

