-- ==== Sys2Proof/Safety.lean ====
section
/-! DEFINITION. What a safe run is, and the invariants between commands (10_state.md R37). -/

namespace Sys2Proof.Machine

/-- `k` steps, stopping at the first fault or refusal: a run of `k` events (70_reset_and_hazards.md R205). It is the host's
`Core.run` of this machine (`runSteps_eq_core_run`), in the machine's own types. -/
def runSteps : Nat → State → Answer State
  | 0, s => .next s
  | k + 1, s => andThen (step s) (runSteps k)

/-- `k` steps from `s` end in `t`, none refused and none at fault: the premise of every claim about a run (60_exceptions.md
R182). -/
abbrev RunsTo (k : Nat) (s t : State) : Prop := runSteps k s = .next t

/-- The observation at the end of a run of `k` events: what the block shows, or the mark of the fault or refusal the run
met (R205, R182). -/
def observeRun (k : Nat) (s : State) : Answer (Bool × Option (BitVec 256)) :=
  andThen (runSteps k s) fun t => .next t.observe

/-- The commands of a list executed in order, each to completion, with no channel in between. -/
def execAll : List Instr → State → Answer State
  | [], s => .next s
  | i :: is, s => andThen (exec i s) (execAll is)

/-- Every byte below `BUFLEN` holds a value: the valid bytes are `BUF[0..BUFLEN-1]` (10_state.md R29). -/
def PendingHeld (s : State) : Prop := ∀ a < s.buflen.toNat, ∃ b, Memory.read s.buf a = some b

/-- What holds between any two commands (R28, R29, R37, and the form of the buffer's cells): nothing is asked of the data
registers where there is no session. -/
structure MachineInv (s : State) : Prop where
  /-- The cells are in canonical form. -/
  wf : Memory.wf s.buf
  /-- Every cell is one of `BUF[0..127]` (20_memory.md R50). -/
  inRange : ∀ c ∈ s.buf, c.1 < bufCapacity
  /-- `BITLEN` counts whole bytes: its low three bits are 0 (R28). -/
  wholeBytes : s.phase ≠ .none → s.bitlen.toNat % 8 = 0
  /-- In a session, `BUFLEN = n mod 64` and `BITLEN = 8n` (R37). -/
  active : s.phase = .active → s.buflen.toNat = s.bitlen.toNat / 8 % 64
  /-- In a session, the pending bytes hold values (R29). -/
  pending : s.phase = .active → PendingHeld s
  /-- After `FINAL` the buffer is empty (R37, 43_finalize.md R162). -/
  spent : s.phase = .spent → s.buflen = 0

/-- R37, `PHASE = ACTIVE`: the session has taken exactly the bytes `m`. The last `m.length mod 64` of them are pending, and
`H` is `TRANSFORM` applied to the complete 64-byte blocks of `m` in order, starting from `IV`. -/
structure InSessionWith (m : List Byte) (s : State) : Prop where
  phase : s.phase = .active
  fits : 8 * m.length < 2 ^ 64
  bitlen : s.bitlen.toNat = 8 * m.length
  buflen : s.buflen.toNat = m.length % 64
  pending : ∀ i < m.length % 64, Memory.read s.buf i = m[m.length - m.length % 64 + i]?
  hash : s.hash = compressBlocks iv (blocksOf m)

end Sys2Proof.Machine
end

