-- ==== Sys2Proof/Certificates/Slice0/Obligations.lean ====
section
/-! DEFINITION. The statements for the provers. -/

section

open Sys2Proof Sys2Proof.Machine

/-! Encoding. -/

/-- R78, over the fields `op = w / 256` (bits 9:8) and `data = w mod 256` (bits 7:0). -/
def Obligations.DecodeClassifiesEveryWord : Prop :=
  ∀ w : CommandWord,
    (w.toNat / 256 = 1 ∧ w.toNat % 256 = 0 → decode w = .command .init) ∧
    (w.toNat / 256 = 2 → decode w = .command (.upd (BitVec.ofNat 8 (w.toNat % 256)))) ∧
    (w.toNat / 256 = 3 ∧ w.toNat % 256 = 0 → decode w = .command .final) ∧
    (w.toNat / 256 = 0 ∨ (w.toNat / 256 = 1 ∨ w.toNat / 256 = 3) ∧ w.toNat % 256 ≠ 0 → decode w = .reserved)

/-- R76: which words are reserved, by their fields `op = w / 256` and `data = w mod 256`; they are 766 of the 1024, the
all-zero word among them. -/
def Obligations.ReservedWordsAre766 : Prop :=
  (∀ w : CommandWord, decode w = .reserved ↔
    w.toNat / 256 = 0 ∨ w.toNat / 256 = 1 ∧ w.toNat % 256 ≠ 0 ∨ w.toNat / 256 = 3 ∧ w.toNat % 256 ≠ 0) ∧
  ((List.range 1024).countP fun n => decode (BitVec.ofNat 10 n) = .reserved) = 766 ∧
    decode 0x000#10 = .reserved

/-- R73 to R75: the word of each command, and each command word is the word of exactly one command. -/
def Obligations.DecodeAndEncodeAgree : Prop :=
  (encode .init = 0x100#10 ∧ (∀ b : Byte, (encode (.upd b)).toNat = 0x200 + b.toNat) ∧ encode .final = 0x300#10) ∧
    ∀ (w : CommandWord) (i : Instr), decode w = .command i ↔ w = encode i

/-- R73 to R76, words written out from the spec: their decodings. -/
def Obligations.WrittenOutWordsDecode : Prop :=
  decode 0b0100000000#10 = .command .init ∧ decode 0b1001100001#10 = .command (.upd 0x61#8) ∧
    decode 0b1011111111#10 = .command (.upd 0xff#8) ∧ decode 0b1100000000#10 = .command .final ∧
    decode 0b0100000001#10 = .reserved ∧ decode 0b1110000000#10 = .reserved

/-- R81: what the assembler makes of the textual forms of a command. -/
def Obligations.AssemblerReadsCommands : Prop :=
  (∀ b : Byte, assembleLine (['U', 'P', 'D', ' ', '0', 'x', hexDigit (b.extractLsb' 4 4), hexDigit (b.extractLsb' 0 4)])
      = some [.upd b]) ∧
    assembleLine ['I', 'N', 'I', 'T'] = some [.init] ∧ assembleLine ['F', 'I', 'N', 'A', 'L'] = some [.final] ∧
    assembleLine ['U', 'P', 'D', ' ', '\'', 'a', '\'', ' ', ';', 'x'] = some [.upd 0x61] ∧
    assembleLine ['U', 'P', 'D', ' ', '2', '5', '5'] = some [.upd 0xff] ∧
    assembleLine ['U', 'P', 'D', ' ', '2', '5', '6'] = none

/-! The step. -/

/-- R70: the block takes one word from the channel and executes it to completion. The model's step adds nothing around a
command but taking its word. -/
def Obligations.StepRunsTheDecodedCommand : Prop :=
  ∀ (s : State) (w : CommandWord) (es : List Event) (i : Instr),
    s.channel = .command w :: es → decode w = .command i → i.wf = true →
      step s = exec i { s with channel := es }

/-- The fetch interface: a command's word put by `withFetchWord` is the command the next step runs, from any state. -/
def Obligations.FetchedWordRunsNext : Prop :=
  ∀ (s : State) (i : Instr),
    decodeTableWord 16 (encode i).toNat = some i ∧ step (s.withFetchWord 16 (encode i).toNat) = exec i s

/-- R191, R205, by the model's reading (notes/assumptions 6): with nothing on the channel the block waits, unchanged. -/
def Obligations.IdleBlockWaits : Prop :=
  ∀ s : State, s.channel = [] → step s = .next s

/-- R175: every reserved word is refused in every `PHASE`, before any other reason (R179). -/
def Obligations.ReservedWordIsRefused : Prop :=
  ∀ (s : State) (w : CommandWord) (es : List Event),
    s.channel = .command w :: es →
    (w.toNat / 256 = 0 ∨ (w.toNat / 256 = 1 ∨ w.toNat / 256 = 3) ∧ w.toNat % 256 ≠ 0) →
      step s = .refused .reservedEncoding

/-- R176, on the model's own event for it, and before any other reason, which is the model's rank (notes/assumptions 7). -/
def Obligations.SimultaneousCommandsAreRefused : Prop :=
  ∀ (s : State) (w₁ w₂ : CommandWord) (es : List Event),
    s.channel = .simultaneous w₁ w₂ :: es → step s = .refused .concurrentAccess

/-- R190: whatever the session had reached, after the reset event there is none; the digest is not valid, no byte of the
buffer holds a value, and `UPD` and `FINAL` are refused for want of a session. -/
def Obligations.ResetEventEndsTheSession : Prop :=
  ∀ (s : State) (es : List Event), s.channel = .reset :: es →
    ∃ t, step s = .next t ∧ t.phase = .none ∧ t.digestValid = false ∧ t.channel = es ∧
      (∀ a, Memory.read t.buf a = none) ∧ (∀ b, exec (.upd b) t = .refused .commandWithoutSession) ∧
      exec .final t = .refused .commandWithoutSession

/-- R38, the values the spec gives: after reset there is no session and no valid digest, and no byte holds a value. -/
def Obligations.ResetStateHoldsNoSession : Prop :=
  State.reset.phase = .none ∧ State.reset.digestValid = false ∧ (∀ a, Memory.read State.reset.buf a = none)

/-- R70: the commands take effect in exactly the order the host sent them, each to completion: running the channel is
executing the commands, and the rest of the channel waits. -/
def Obligations.ChannelRunsCommandsInOrder : Prop :=
  ∀ (is : List Instr) (es : List Event) (s : State),
    runSteps is.length { s with channel := channelOf is ++ es } = execAll is { s with channel := es }

/-- R182: once a run is refused it stays refused, however many events follow. -/
def Obligations.RefusalIsSticky : Prop :=
  ∀ (j k : Nat) (s : State) (r : Refusal), runSteps j s = .refused r → runSteps (j + k) s = .refused r

/-! `INIT`. -/

/-- R130. That `BUF`, `W` and `a..h` keep what they hold, and `draws` too, is the model's (notes/assumptions 2 and 3): R36
leaves their contents unspecified after `INIT`. -/
def Obligations.InitStartsAFreshSession : Prop :=
  encode .init = 0x100#10 ∧
    ∀ s : State,
      exec .init s = .next { s with
        hash := ⟨0x6a09e667, 0xbb67ae85, 0x3c6ef372, 0xa54ff53a, 0x510e527f, 0x9b05688c, 0x1f83d9ab, 0x5be0cd19⟩
        bitlen := 0
        buflen := 0
        phase := .active } ∧
      ∀ t, exec .init s = .next t → t.digestValid = false ∧ exec .init t = .next t

/-! `UPD`. -/

/-- R131 where the block does not fill: the byte lands at `BUFLEN`, both counts rise, nothing else changes. That stale cells,
`W`, `a..h` and `draws` keep what they hold is the model's (notes/assumptions 2 and 3). -/
def Obligations.UpdAppendsTheByte : Prop :=
  ∀ (s : State) (b : Byte), s.phase = .active → s.bitlen.toNat ≤ 2 ^ 64 - 16 → s.buflen.toNat < 63 →
    ∃ t, exec (.upd b) s = .next t ∧
      t.buflen.toNat = s.buflen.toNat + 1 ∧ t.bitlen.toNat = s.bitlen.toNat + 8 ∧
      (∀ a, Memory.read t.buf a = if a = s.buflen.toNat then some b else Memory.read s.buf a) ∧
      t.hash = s.hash ∧ t.phase = s.phase ∧ t.sched = s.sched ∧ t.work = s.work ∧
      t.channel = s.channel ∧ t.draws = s.draws

/-- R131 where the block fills: the 64th byte is compressed with the 63 before it, in the same command, and the buffer is
empty again. `W` and `a..h` are written and hold nothing defined afterwards. After the flush every byte of `BUF` is stale,
and that its cells keep the bytes is the model's (notes/assumptions 2). -/
def Obligations.UpdFlushesTheFullBlock : Prop :=
  ∀ (s : State) (b : Byte) (blk : Block), s.phase = .active → s.bitlen.toNat ≤ 2 ^ 64 - 16 → s.buflen.toNat = 63 →
    (∀ i (h : i < 63), Memory.read s.buf i = some blk[i]) → blk[63] = b →
    ∃ t, exec (.upd b) s = .next t ∧
      t.hash = compress s.hash blk ∧ t.buflen = 0 ∧ t.bitlen.toNat = s.bitlen.toNat + 8 ∧ t.phase = .active ∧
      (∀ a, Memory.read t.buf a = if a = 63 then some b else Memory.read s.buf a) ∧ t.channel = s.channel

/-- R131, "Defined when": in a session below the ceiling `UPD` completes for every byte, whether or not the block fills. -/
def Obligations.UpdCompletesInASession : Prop :=
  ∀ (s : State) (b : Byte), MachineInv s → s.phase = .active → s.bitlen.toNat ≤ 2 ^ 64 - 16 →
    ∃ t, exec (.upd b) s = .next t ∧ t.phase = .active ∧ t.bitlen.toNat = s.bitlen.toNat + 8 ∧
      t.buflen.toNat = (s.buflen.toNat + 1) % 64 ∧
      (s.buflen.toNat ≠ 63 → t.hash = s.hash)

/-- R174: at the ceiling `UPD` is refused in a session, not wrapped. In a spent session it is refused for the phase (R172),
which is asked before the value (R179). -/
def Obligations.UpdIsRefusedAtTheCeiling : Prop :=
  ∀ (s : State) (b : Byte),
    (s.phase = .active → s.bitlen.toNat = 2 ^ 64 - 8 → exec (.upd b) s = .refused .bitLengthOverflow) ∧
    (s.phase = .spent → s.bitlen.toNat = 2 ^ 64 - 8 → exec (.upd b) s = .refused .commandInSpentPhase)

/-- R172. -/
def Obligations.SpentSessionTakesOnlyInit : Prop :=
  ∀ s : State, s.phase = .spent →
    (∀ b, exec (.upd b) s = .refused .commandInSpentPhase) ∧ exec .final s = .refused .commandInSpentPhase ∧
      ∃ t, exec .init s = .next t ∧ t.phase = .active

/-- R173. -/
def Obligations.NoSessionTakesOnlyInit : Prop :=
  ∀ s : State, s.phase = .none →
    (∀ b, exec (.upd b) s = .refused .commandWithoutSession) ∧ exec .final s = .refused .commandWithoutSession ∧
      ∃ t, exec .init s = .next t ∧ t.phase = .active

/-! `FINAL`. -/

/-- R59, R151 to R153: the padded buffer. With `L` bytes pending and the suffix at `E`, 56 or 120: the pending bytes, the
marker, zeros, the bit count; the total length 64 or 128; and nothing else written. That the cells from the new `BUFLEN`
on, which hold no value by R60, keep their bytes is the model's (notes/assumptions 2), and that `W`, `a..h` and `draws`
stay is too (notes/assumptions 3). -/
def Obligations.PaddingLaysOutTheBuffer : Prop :=
  ∀ (s : State) (L E : Nat), s.buflen.toNat = L → L ≤ 63 → E = (if L ≤ 55 then 56 else 120) →
    ∃ t, padBuffer s = .next t ∧ t.buflen.toNat = E + 8 ∧
      (∀ a, Memory.read t.buf a =
        if a < L then Memory.read s.buf a
        else if a = L then some 0x80#8
        else if a < E then some 0x00#8
        else if a < E + 8 then some (BitVec.ofNat 8 (s.bitlen.toNat / 256 ^ (E + 7 - a)))
        else Memory.read s.buf a) ∧
      t = { s with buf := t.buf, buflen := t.buflen }

/-- R152: the number of zero bytes is `55 - L` for `L ≤ 55` and `119 - L` for `56 ≤ L ≤ 63`. That the cells from the new
`BUFLEN` on keep their bytes is the model's (notes/assumptions 2). -/
def Obligations.ZeroFillStopsAt56 : Prop :=
  ∀ (s : State) (L : Nat), L ≤ 63 → s.buflen.toNat = L + 1 →
    ∃ t, zeroFill 63 s = .next t ∧
      t.buflen.toNat = L + 1 + (if L ≤ 55 then 55 - L else 119 - L) ∧ t.buflen.toNat % 64 = 56 ∧
      t.bitlen = s.bitlen ∧
      ∀ a, Memory.read t.buf a =
        if L + 1 ≤ a ∧ a < t.buflen.toNat then some 0x00#8 else Memory.read s.buf a

/-- R150 with at most 55 bytes pending: one compression, of the pending bytes, the marker, `55 - L` zeros and the bit
count. R162 leaves `BUF` unspecified afterwards: that the cells not written keep their bytes is the model's
(notes/assumptions 2). -/
def Obligations.FinalCompressesOneBlock : Prop :=
  ∀ (s : State) (m : List Byte), s.phase = .active → s.buflen.toNat = m.length → m.length ≤ 55 →
    (∀ i < m.length, Memory.read s.buf i = m[i]?) →
    ∃ t, exec .final s = .next t ∧
      t.hash = compress s.hash
        (blockAt (m ++ [0x80#8] ++ List.replicate (55 - m.length) 0x00#8 ++ be64bytes s.bitlen) 0) ∧
      t.phase = .spent ∧ t.digestValid = true ∧ t.buflen = 0 ∧ t.bitlen = s.bitlen ∧ t.channel = s.channel ∧
      ∀ a, (a < m.length ∨ 64 ≤ a) → Memory.read t.buf a = Memory.read s.buf a

/-- R150 with 56 to 63 bytes pending: two compressions, the second from the hash state the first produced. R162 leaves
`BUF` unspecified afterwards: that the cells not written keep their bytes is the model's (notes/assumptions 2). -/
def Obligations.FinalCompressesTwoBlocks : Prop :=
  ∀ (s : State) (m : List Byte), s.phase = .active → s.buflen.toNat = m.length → 56 ≤ m.length → m.length ≤ 63 →
    (∀ i < m.length, Memory.read s.buf i = m[i]?) →
    ∃ t, exec .final s = .next t ∧
      t.hash =
        compress
          (compress s.hash
            (blockAt (m ++ [0x80#8] ++ List.replicate (119 - m.length) 0x00#8 ++ be64bytes s.bitlen) 0))
          (blockAt (m ++ [0x80#8] ++ List.replicate (119 - m.length) 0x00#8 ++ be64bytes s.bitlen) 64) ∧
      t.phase = .spent ∧ t.digestValid = true ∧ t.buflen = 0 ∧ t.bitlen = s.bitlen ∧ t.channel = s.channel ∧
      ∀ a, (a < m.length ∨ 128 ≤ a) → Memory.read t.buf a = Memory.read s.buf a

/-- R150, "Defined when: `PHASE = ACTIVE`": in a session `FINAL` completes, from any number of pending bytes. -/
def Obligations.FinalCompletesInASession : Prop :=
  ∀ s : State, MachineInv s → s.phase = .active →
    ∃ t, exec .final s = .next t ∧ t.phase = .spent ∧ t.buflen = 0 ∧ t.bitlen = s.bitlen ∧ t.digestValid = true

/-! What changes what. -/

/-- R30: which steps change `PHASE`, and to what. -/
def Obligations.PhaseChangesOnlyByItsCommands : Prop :=
  ∀ s t : State, step s = .next t → t.phase ≠ s.phase →
    (∃ es, s.channel = .command 0x100#10 :: es ∧ t.phase = .active) ∨
    (∃ es, s.channel = .command 0x300#10 :: es ∧ s.phase = .active ∧ t.phase = .spent) ∨
    (∃ es, s.channel = .reset :: es ∧ t.phase = .none)

/-- R28: outside reset only `INIT` and `UPD` write `BITLEN`, to 0 and by 8. -/
def Obligations.BitlenChangesOnlyByInitAndUpd : Prop :=
  ∀ s t : State, step s = .next t → t.bitlen ≠ s.bitlen →
    (∃ es, s.channel = .command 0x100#10 :: es ∧ t.bitlen = 0) ∨
    (∃ (b : Byte) (es : List Event), s.channel = .command (encode (.upd b)) :: es ∧ s.phase = .active ∧
      t.bitlen.toNat = s.bitlen.toNat + 8) ∨
    (∃ es, s.channel = .reset :: es)

/-- R23: outside reset `H` changes only where `INIT` loads `IV` or `TRANSFORM` adds onto it, in the `UPD` that fills the
block and in `FINAL`. -/
def Obligations.HashChangesOnlyByInitAndCompression : Prop :=
  ∀ s t : State, step s = .next t → t.hash ≠ s.hash →
    (∃ es, s.channel = .command 0x100#10 :: es ∧ t.hash = iv) ∨
    (∃ (b : Byte) (es : List Event) (blk : Block), s.channel = .command (encode (.upd b)) :: es ∧
      s.buflen.toNat = 63 ∧ t.hash = compress s.hash blk) ∨
    (∃ (es : List Event) (blks : List Block), s.channel = .command 0x300#10 :: es ∧
      (blks.length = 1 ∨ blks.length = 2) ∧ t.hash = compressBlocks s.hash blks) ∨
    (∃ es, s.channel = .reset :: es)

/-- R51, R130, R131, R150: which bytes of `BUF` a command writes. `INIT` writes none, `UPD` the one at `BUFLEN`, `FINAL`
none below `BUFLEN` or above 127; every other byte reads as before. The reads are of cells, stale ones too
(notes/assumptions 2). -/
def Obligations.CommandsWriteOnlyTheirBufferBytes : Prop :=
  ∀ s t : State,
    (exec .init s = .next t → ∀ a, Memory.read t.buf a = Memory.read s.buf a) ∧
    (∀ b, exec (.upd b) s = .next t → ∀ a, a ≠ s.buflen.toNat → Memory.read t.buf a = Memory.read s.buf a) ∧
    (exec .final s = .next t → ∀ a, a < s.buflen.toNat ∨ 128 ≤ a → Memory.read t.buf a = Memory.read s.buf a)

/-- R36, R130, R131: `INIT`, and `UPD` where no block fills, leave `W`, `a..h` and the count of free draws as they are
(the model's, notes/assumptions 3); no command writes the channel. -/
def Obligations.TransientsAndChannelFrame : Prop :=
  ∀ s t : State,
    (∀ i, exec i s = .next t → t.channel = s.channel) ∧
    (exec .init s = .next t → t.sched = s.sched ∧ t.work = s.work ∧ t.draws = s.draws) ∧
    (∀ b, exec (.upd b) s = .next t → s.buflen.toNat ≠ 63 →
      t.sched = s.sched ∧ t.work = s.work ∧ t.draws = s.draws)

/-! The digest. -/

/-- R31: `DIGEST_VALID = 1` exactly when `PHASE = SPENT`; a completed `FINAL` sets it, `INIT` and reset clear it, `UPD`
leaves it 0. -/
def Obligations.DigestValidFollowsPhase : Prop :=
  (∀ s : State, s.digestValid = true ↔ s.phase = .spent) ∧
    ∀ s t : State, (exec .final s = .next t → t.digestValid = true) ∧ (exec .init s = .next t → t.digestValid = false) ∧
      (∀ b, exec (.upd b) s = .next t → t.digestValid = false) ∧ (resetEvent s).digestValid = false

/-- R32: while `DIGEST_VALID = 1` every sample of `DIGEST` is `H[0] ‖ .. ‖ H[7]`, `H[0]` in bits 255:224. -/
def Obligations.ValidDigestIsTheHashState : Prop :=
  ∀ (s : State) (n : Nat), s.digestValid = true →
    (s.sampleDigest n).extractLsb' 224 32 = s.hash.h0 ∧ (s.sampleDigest n).extractLsb' 192 32 = s.hash.h1 ∧
    (s.sampleDigest n).extractLsb' 160 32 = s.hash.h2 ∧ (s.sampleDigest n).extractLsb' 128 32 = s.hash.h3 ∧
    (s.sampleDigest n).extractLsb' 96 32 = s.hash.h4 ∧ (s.sampleDigest n).extractLsb' 64 32 = s.hash.h5 ∧
    (s.sampleDigest n).extractLsb' 32 32 = s.hash.h6 ∧ (s.sampleDigest n).extractLsb' 0 32 = s.hash.h7

/-- R32, "immutable thereafter": from a spent session, however many steps are taken, the digest stays what it is as long
as no `INIT` and no reset is among the events. -/
def Obligations.DigestStaysUntilInitOrReset : Prop :=
  ∀ (k n : Nat) (s t : State), s.phase = .spent →
    (∀ e ∈ s.channel.take k, e ≠ .reset ∧ e ≠ .command 0x100#10) → runSteps k s = .next t →
      t.digestValid = true ∧ t.hash = s.hash ∧ t.sampleDigest n = s.sampleDigest n

/-- R156: 32 bytes, those of `H[0]` first, each word's most significant byte first; byte `k` of them bits `255-8k : 248-8k` of `DIGEST`. -/
def Obligations.DigestBytesAreTheDigest : Prop :=
  ∀ H : HashState, (digestBytes H).length = 32 ∧
    digestBytes H = be32bytes H.h0 ++ be32bytes H.h1 ++ be32bytes H.h2 ++ be32bytes H.h3 ++ be32bytes H.h4 ++
      be32bytes H.h5 ++ be32bytes H.h6 ++ be32bytes H.h7 ∧
    ∀ k < 32, (digestBytes H)[k]? = some ((digestOf H).extractLsb' (248 - 8 * k) 8)

/-- R157: always 64 characters of `0-9a-f`; characters `2k` and `2k+1` are the high and the low nibble of byte `k`. -/
def Obligations.DigestHexIs64LowercaseDigits : Prop :=
  ∀ H : HashState, (digestHex H).length = 64 ∧
    digestHex H = hex8 H.h0 ++ hex8 H.h1 ++ hex8 H.h2 ++ hex8 H.h3 ++ hex8 H.h4 ++ hex8 H.h5 ++ hex8 H.h6 ++ hex8 H.h7 ∧
    (∀ c ∈ digestHex H, ('0' ≤ c ∧ c ≤ '9') ∨ ('a' ≤ c ∧ c ≤ 'f')) ∧
    ∀ k < 32, ∀ b, (digestBytes H)[k]? = some b →
      (digestHex H)[2 * k]? = some (hexDigit (b.extractLsb' 4 4)) ∧
      (digestHex H)[2 * k + 1]? = some (hexDigit (b.extractLsb' 0 4))

/-! The bit-operations layer. -/

/-- R90: `ADD32` is the integer sum modulo `2^32`; a sum of several terms does not depend on their order. -/
def Obligations.AdditionIsModulo2To32 : Prop :=
  (∀ x y : Word, (add32 x y).toNat = (x.toNat + y.toNat) % 2 ^ 32) ∧
    ∀ xs ys : List Word, xs.Perm ys → sum32 xs = sum32 ys

/-- R92: bit `i` of `ROTR(x, n)` is bit `(i + n) mod 32` of `x`, for `1 ≤ n ≤ 31`; rotating on by `32 - n` gives `x`. -/
def Obligations.RotateMovesBitsRight : Prop :=
  ∀ (x : Word) (n : Nat), 1 ≤ n → n ≤ 31 →
    (∀ i < 32, (rotr x n).getLsbD i = x.getLsbD ((i + n) % 32)) ∧
    rotr x n = (x >>> n) ||| (x <<< (32 - n)) ∧ rotr (rotr x n) (32 - n) = x

/-- R93: bit `i` of `SHR(x, n)` is bit `i + n` of `x` where there is one, and 0 above it. -/
def Obligations.ShiftRightBringsInZeros : Prop :=
  ∀ (x : Word) (n i : Nat), n ≤ 31 → i < 32 →
    (shr x n).getLsbD i = (if i + n ≤ 31 then x.getLsbD (i + n) else false)

/-- R94, R95: `CH` chooses bit by bit, `MAJ` is the majority bit by bit. -/
def Obligations.ChooseAndMajorityBitByBit : Prop :=
  ∀ (x y z : Word) (i : Nat), i < 32 →
    (ch x y z).getLsbD i = (if x.getLsbD i then y.getLsbD i else z.getLsbD i) ∧
    ((maj x y z).getLsbD i = true ↔
      2 ≤ (x.getLsbD i).toNat + (y.getLsbD i).toNat + (z.getLsbD i).toNat)

/-- R96 to R99, bit by bit: three rotations for `EP0` and `EP1`; two rotations and a shift, whose top bits are zeros, for
`SIG0` and `SIG1`. -/
def Obligations.SigmaFunctionsBitByBit : Prop :=
  ∀ (x : Word) (i : Nat), i < 32 →
    (ep0 x).getLsbD i = (x.getLsbD ((i + 2) % 32) ^^ x.getLsbD ((i + 13) % 32) ^^ x.getLsbD ((i + 22) % 32)) ∧
    (ep1 x).getLsbD i = (x.getLsbD ((i + 6) % 32) ^^ x.getLsbD ((i + 11) % 32) ^^ x.getLsbD ((i + 25) % 32)) ∧
    (sig0 x).getLsbD i =
      (x.getLsbD ((i + 7) % 32) ^^ x.getLsbD ((i + 18) % 32) ^^ (decide (i + 3 ≤ 31) && x.getLsbD (i + 3))) ∧
    (sig1 x).getLsbD i =
      (x.getLsbD ((i + 17) % 32) ^^ x.getLsbD ((i + 19) % 32) ^^ (decide (i + 10 ≤ 31) && x.getLsbD (i + 10)))

/-- R101, R102, R105: words and bytes, most significant byte first. -/
def Obligations.BytesAreBigEndian : Prop :=
  (∀ b0 b1 b2 b3 : Byte, (be32 b0 b1 b2 b3).toNat =
      b0.toNat * 2 ^ 24 + b1.toNat * 2 ^ 16 + b2.toNat * 2 ^ 8 + b3.toNat) ∧
    (∀ b0 b1 b2 b3 : Byte, be32bytes (be32 b0 b1 b2 b3) = [b0, b1, b2, b3]) ∧
    ∀ v : BitVec 64, be64bytes v = (List.range 8).map fun k => BitVec.ofNat 8 (v.toNat / 256 ^ (7 - k))

/-- R22, R100, against the definition the spec gives of the two tables: `IV` and `K` are the first 32 bits of the
fractional parts of the square roots of the first 8 primes and of the cube roots of the first 64. With `n` the integer
part and the 32 bits after it, `n^2 ≤ p 2^64 < (n+1)^2` and `n^3 ≤ p 2^96 < (n+1)^3`. -/
def Obligations.ConstantTablesAreTheRootsOfPrimes : Prop :=
  (∀ x ∈ List.zip
      [2, 3, 5, 7, 11, 13, 17, 19, 23, 29, 31, 37, 41, 43, 47, 53,
        59, 61, 67, 71, 73, 79, 83, 89, 97, 101, 103, 107, 109, 113, 127, 131,
        137, 139, 149, 151, 157, 163, 167, 173, 179, 181, 191, 193, 197, 199, 211, 223,
        227, 229, 233, 239, 241, 251, 257, 263, 269, 271, 277, 281, 283, 293, 307, 311]
      roundConstants.toList,
    ∃ q < 8, (q * 2 ^ 32 + x.2.toNat) ^ 3 ≤ x.1 * 2 ^ 96 ∧ x.1 * 2 ^ 96 < (q * 2 ^ 32 + x.2.toNat + 1) ^ 3) ∧
    ∀ x ∈ List.zip [2, 3, 5, 7, 11, 13, 17, 19] (hashWords iv),
      ∃ q < 8, (q * 2 ^ 32 + x.2.toNat) ^ 2 ≤ x.1 * 2 ^ 64 ∧ x.1 * 2 ^ 64 < (q * 2 ^ 32 + x.2.toNat + 1) ^ 2

/-! The compression core. -/

/-- R111, R112: the schedule `TRANSFORM` works with, whatever `W` held before: words 0 to 15 are the block's, big-endian,
and each later word is the sum of its four. -/
def Obligations.ScheduleSatisfiesItsRecurrence : Prop :=
  ∀ (blk : Block) (s : State),
    (∀ t (h : t < 16), (schedExpand (schedLoad blk s)).sched[t] =
      be32 blk[4 * t] blk[4 * t + 1] blk[4 * t + 2] blk[4 * t + 3]) ∧
    ∀ t (h : t < 64) (h' : 16 ≤ t), (schedExpand (schedLoad blk s)).sched[t] =
      sig1 (schedExpand (schedLoad blk s)).sched[t - 2] + (schedExpand (schedLoad blk s)).sched[t - 7] +
        sig0 (schedExpand (schedLoad blk s)).sched[t - 15] + (schedExpand (schedLoad blk s)).sched[t - 16]

/-- R114. -/
def Obligations.RoundFunction : Prop :=
  ∀ (s : State) (t : Fin 64) (T1 T2 : Word),
    T1 = s.work.h + ep1 s.work.e + ch s.work.e s.work.f s.work.g + roundConstants[t.val] + s.sched[t.val] →
    T2 = ep0 s.work.a + maj s.work.a s.work.b s.work.c →
    roundStep s t = { s with
      work :=
        { a := T1 + T2, b := s.work.a, c := s.work.b, d := s.work.c,
          e := s.work.d + T1, f := s.work.e, g := s.work.f, h := s.work.g } }

/-- R115: each working variable is added onto its hash word, wrapping by itself; nothing else changes. -/
def Obligations.MixInAccumulates : Prop :=
  ∀ s : State, ∃ H : HashState, mixIn s = { s with hash := H } ∧
    H.h0.toNat = (s.hash.h0.toNat + s.work.a.toNat) % 2 ^ 32 ∧
    H.h1.toNat = (s.hash.h1.toNat + s.work.b.toNat) % 2 ^ 32 ∧
    H.h2.toNat = (s.hash.h2.toNat + s.work.c.toNat) % 2 ^ 32 ∧
    H.h3.toNat = (s.hash.h3.toNat + s.work.d.toNat) % 2 ^ 32 ∧
    H.h4.toNat = (s.hash.h4.toNat + s.work.e.toNat) % 2 ^ 32 ∧
    H.h5.toNat = (s.hash.h5.toNat + s.work.f.toNat) % 2 ^ 32 ∧
    H.h6.toNat = (s.hash.h6.toNat + s.work.g.toNat) % 2 ^ 32 ∧
    H.h7.toNat = (s.hash.h7.toNat + s.work.h.toNat) % 2 ^ 32

/-- R116, R110: on the state, whatever `W` and `a..h` hold, `TRANSFORM` makes `H` the pure function `COMPRESS` of `H` and the
64 bytes, and writes nothing else but `W` and `a..h`. -/
def Obligations.TransformComputesCompress : Prop :=
  ∀ (blk : Block) (s : State),
    (transform blk s).hash = compress s.hash blk ∧
      transform blk s =
        { s with hash := (transform blk s).hash, sched := (transform blk s).sched, work := (transform blk s).work }

/-! The whole machine. -/

/-- The invariant holds after reset. -/
def Obligations.ResetMeetsTheInvariant : Prop := MachineInv State.reset

/-- R37, R28, R29: every step keeps the invariant, from every state that meets it. -/
def Obligations.StepKeepsTheInvariant : Prop :=
  ∀ s t : State, MachineInv s → step s = .next t → MachineInv t

/-- R170, R171, R182: from a state that meets the invariant no step faults, and a refusal is one of the five reasons. -/
def Obligations.OnlyTheFiveRefusals : Prop :=
  ∀ s : State, MachineInv s →
    (∀ f, step s ≠ .fault f) ∧
    ∀ r, step s = .refused r →
      r = .commandInSpentPhase ∨ r = .commandWithoutSession ∨ r = .bitLengthOverflow ∨ r = .reservedEncoding ∨
        r = .concurrentAccess

/-- R37, `PHASE = ACTIVE`: `INIT` starts the session of no bytes, and `UPD b` takes the session of `m` to that of `m ++ [b]`. -/
def Obligations.SessionHoldsTheBytesTaken : Prop :=
  (∀ s : State, ∃ t, exec .init s = .next t ∧ InSessionWith [] t) ∧
    ∀ (s : State) (m : List Byte) (b : Byte), InSessionWith m s → 8 * (m.length + 1) < 2 ^ 64 →
      ∃ t, exec (.upd b) s = .next t ∧ InSessionWith (m ++ [b]) t

/-- R132: `UPDATE c` takes the session of `m` to the session of `m ++ c`, for a chunk of any length. -/
def Obligations.UpdateTakesAChunk : Prop :=
  ∀ (s : State) (m c : List Byte) (es : List Event), InSessionWith m s → 8 * (m.length + c.length) < 2 ^ 64 →
    ∃ t, RunsTo c.length { s with channel := channelOf (expandUpdate c) ++ es } t ∧ InSessionWith (m ++ c) t ∧
      t.channel = es

/-- R161: from any state at all, `INIT; UPD m[0]; ..; UPD m[n-1]; FINAL` leaves `H = SHA256(m)`, the digest valid and its
64-character rendering that of `SHA256(m)`. -/
def Obligations.SessionComputesSha256 : Prop :=
  ∀ (s : State) (m : List Byte) (es : List Event), 8 * m.length < 2 ^ 64 →
    ∃ t, RunsTo (m.length + 2) { s with channel := channelOf (expandHash m) ++ es } t ∧
      t.hash = sha256 m ∧ t.phase = .spent ∧ t.digestValid = true ∧ t.bitlen.toNat = 8 * m.length ∧ t.buflen = 0 ∧
      t.channel = es ∧ t.observe = (true, some (digestOf (sha256 m))) ∧ digestHex t.hash = digestHex (sha256 m)

/-- R133: two ways of splitting a message into chunks give the same run, whatever the state. -/
def Obligations.ChunkingDoesNotMatter : Prop :=
  ∀ (s : State) (cs ds : List (List Byte)) (k : Nat), cs.flatten = ds.flatten →
    runSteps k { s with channel := channelOf (expandChunks cs ++ [.final]) } =
      runSteps k { s with channel := channelOf (expandChunks ds ++ [.final]) }

/-- R134: hashing a message in two fresh sessions, begun from any two states, gives the same 64 characters: nothing an
earlier session left in `H`, `BUF`, `W`, `a..h` or `BITLEN` reaches the digest. -/
def Obligations.HashingTwiceAgrees : Prop :=
  ∀ (s₁ s₂ : State) (m : List Byte), 8 * m.length < 2 ^ 64 →
    ∃ t₁ t₂, RunsTo (m.length + 2) { s₁ with channel := channelOf (expandHash m) } t₁ ∧
      RunsTo (m.length + 2) { s₂ with channel := channelOf (expandHash m) } t₂ ∧
      t₁.digestValid = true ∧ t₂.digestValid = true ∧ digestHex t₁.hash = digestHex t₂.hash

/-- R160, R136: `PAD(m)` has `(55 - n) mod 64` zero bytes; its length is the least multiple of 64 that is at least `n + 9`,
and its blocks are as many as R136 says `TRANSFORM` runs. For `8n ≥ 2^64`, where the spec gives no `PAD(m)`, it is a claim
about the model's total function (notes/assumptions 19). -/
def Obligations.PaddedLength : Prop :=
  ∀ m : List Byte,
    padZeros m.length = (if m.length % 64 ≤ 55 then 55 - m.length % 64 else 119 - m.length % 64) ∧
    (pad m).length % 64 = 0 ∧ m.length + 9 ≤ (pad m).length ∧ (pad m).length < m.length + 9 + 64 ∧
    (blocksOf (pad m)).length = transformCount m.length

/-- R193: the runs of commands defined after reset are exactly those of the shape `(INIT UPD* (FINAL)?)*`, with fewer than
`2^61` `UPD` in each session. -/
def Obligations.DefinedRunsAreTheSessions : Prop :=
  ∀ is : List Instr,
    (∃ t, RunsTo is.length { State.reset with channel := channelOf is } t) ↔ sessionsWf is = true

/-- R186: in a bank of instances the run of each stands, after any schedule, where it stands alone after as many steps as
the schedule gives it, be that a state or a refusal, whatever the others have met. -/
def Obligations.InstancesRunIndependently : Prop :=
  ∀ (n : Nat) (ks : List (Fin n)) (states : Vector State n) (i : Fin n),
    (runInstances ks (Bank.start states))[i.val] = runSteps (ks.count i) states[i.val]

end
end

