-- ==== Sys2Proof/Laws/Bits.lean ====
section
/-! SUPPORT. The additions of the bit-operations layer as additions of bit vectors, and the words of the constant table. -/

namespace Sys2Proof.Machine

/-- `ADD32` is addition of 32-bit vectors. -/
@[simp] theorem add32_eq (x y : Word) : add32 x y = x + y := by
  apply BitVec.eq_of_toNat_eq
  simp [add32]

/-- `K[t]` by its place in the printed table. -/
theorem roundConstants_getElem (t : Nat) (h : t < 64) :
    roundConstants[t] = constantLines[t / 8].extractLsb' (32 * (7 - t % 8)) 32 := by
  simp [roundConstants]

theorem foldl_add32 (xs : List Word) (x : Word) : xs.foldl add32 x = x + sum32 xs := by
  have key : ∀ (ys : List Word) (a : Word), ys.foldl add32 a = a + ys.sum := by
    intro ys
    induction ys with
    | nil => simp
    | cons y ys ih => intro a; simp [ih, BitVec.add_assoc]
  simp [sum32, key]

@[simp] theorem sum32_nil : sum32 [] = 0 := rfl

/-- A sum of words, one term at a time. -/
@[simp] theorem sum32_cons (x : Word) (xs : List Word) : sum32 (x :: xs) = x + sum32 xs := by
  show xs.foldl add32 (add32 0 x) = _
  rw [foldl_add32, add32_eq]
  simp

end Sys2Proof.Machine
end

