-- ==== Sys2Proof/Laws/Memory.lean ====
section
/-! SUPPORT. The laws of the pending buffer's cells: read after write, and that every write keeps the canonical form and
the address range. -/

namespace Sys2Proof.Machine

@[simp] theorem Memory.read_nil (a : Nat) : Memory.read [] a = none := rfl

/-- A read after a write: the byte written at its own address, the old byte at every other. -/
theorem Memory.read_write (m : Memory) (a a' : Nat) (b : Byte) :
    Memory.read (Memory.write m a b) a' = if a' = a then some b else Memory.read m a' := by
  induction m with
  | nil => simp only [Memory.write, Memory.read, eq_comm]
  | cons c m ih =>
    obtain ⟨x, y⟩ := c
    simp only [Memory.write]
    split_ifs with h₁ h₂ h₃ h₃ h₃ <;> simp only [Memory.read] <;> split_ifs <;> first | rfl | omega | simp_all

@[simp] theorem Memory.read_write_same (m : Memory) (a : Nat) (b : Byte) :
    Memory.read (Memory.write m a b) a = some b := by simp [Memory.read_write]

theorem Memory.read_write_other (m : Memory) {a a' : Nat} (b : Byte) (h : a' ≠ a) :
    Memory.read (Memory.write m a b) a' = Memory.read m a' := by simp [Memory.read_write, h]

/-- Every cell after a write is the one written or one that was there. -/
theorem Memory.mem_write {m : Memory} {a : Nat} {b : Byte} {c : Host.Cell}
    (h : c ∈ Memory.write m a b) : c = (a, b) ∨ c ∈ m := by
  induction m with
  | nil => simpa [Memory.write] using h
  | cons d m ih =>
    obtain ⟨x, y⟩ := d
    simp only [Memory.write] at h
    split_ifs at h with h₁ h₂
    · simpa using h
    · simp only [List.mem_cons] at h ⊢; tauto
    · simp only [List.mem_cons] at h ⊢
      rcases h with h | h
      · tauto
      · rcases ih h with h | h <;> tauto

/-- A write keeps the cells in canonical form. -/
theorem Memory.wf_write {m : Memory} (h : Memory.wf m) (a : Nat) (b : Byte) :
    Memory.wf (Memory.write m a b) := by
  induction m with
  | nil => simp [Memory.wf, Memory.write]
  | cons d m ih =>
    obtain ⟨x, y⟩ := d
    obtain ⟨hx, hm⟩ := List.pairwise_cons.1 h
    simp only [Memory.write]
    split_ifs with h₁ h₂
    · refine List.pairwise_cons.2 ⟨?_, h⟩
      intro c hc
      rcases List.mem_cons.1 hc with rfl | hc
      · exact h₁
      · exact Nat.lt_trans h₁ (hx c hc)
    · exact List.pairwise_cons.2 ⟨fun c hc => h₂ ▸ hx c hc, hm⟩
    · refine List.pairwise_cons.2 ⟨?_, ih hm⟩
      intro c hc
      rcases Memory.mem_write hc with rfl | hc
      · show x < a
        omega
      · exact hx c hc

@[simp] theorem Memory.writeList_nil (m : Memory) (a : Nat) : Memory.writeList m a [] = m := by
  cases m <;> rfl

@[simp] theorem Memory.writeList_cons (m : Memory) (a : Nat) (b : Byte) (bs : List Byte) :
    Memory.writeList m a (b :: bs) = Memory.writeList (Memory.write m a b) (a + 1) bs := by
  cases m <;> rfl

/-- A read after the write of a list: the list's bytes where it was written, the old byte at every other address. -/
theorem Memory.read_writeList (bs : List Byte) (m : Memory) (a a' : Nat) :
    Memory.read (Memory.writeList m a bs) a' =
      if a ≤ a' ∧ a' < a + bs.length then bs[a' - a]? else Memory.read m a' := by
  induction bs generalizing m a with
  | nil =>
    have : ¬(a ≤ a' ∧ a' < a) := by omega
    simp [this]
  | cons b bs ih =>
    rw [Memory.writeList_cons, ih, Memory.read_write]
    by_cases h : a' = a
    · subst h; simp
    · by_cases h₂ : a ≤ a' ∧ a' < a + (b :: bs).length
      · have h₃ : a + 1 ≤ a' ∧ a' < a + 1 + bs.length := by simp at h₂; omega
        rw [if_pos h₃, if_pos h₂, show a' - a = (a' - (a + 1)) + 1 by omega, List.getElem?_cons_succ]
      · have h₃ : ¬(a + 1 ≤ a' ∧ a' < a + 1 + bs.length) := by simp at h₂; omega
        rw [if_neg h₃, if_neg h, if_neg h₂]

theorem Memory.wf_writeList (bs : List Byte) {m : Memory} (h : Memory.wf m) (a : Nat) :
    Memory.wf (Memory.writeList m a bs) := by
  induction bs generalizing m a with
  | nil => simpa using h
  | cons b bs ih => rw [Memory.writeList_cons]; exact ih (Memory.wf_write h a b) (a + 1)

theorem Memory.mem_writeList {bs : List Byte} {m : Memory} {a : Nat} {c : Host.Cell}
    (h : c ∈ Memory.writeList m a bs) : c ∈ m ∨ (a ≤ c.1 ∧ c.1 < a + bs.length) := by
  induction bs generalizing m a with
  | nil => exact .inl (by simpa using h)
  | cons b bs ih =>
    rw [Memory.writeList_cons] at h
    rcases ih h with h | h
    · rcases Memory.mem_write h with rfl | h
      · right; simp
      · exact .inl h
    · right; simp; omega

/-- Reading a vector gives the bytes at its addresses, and gives one exactly when each of them has been written. -/
theorem Memory.readVector_eq_some {m : Memory} {addr n : Nat} {v : Vector Byte n} :
    Memory.readVector m addr n = some v ↔ ∀ i (h : i < n), Memory.read m (addr + i) = some v[i] := by
  induction n with
  | zero =>
    simp only [Memory.readVector, Option.some.injEq]
    exact ⟨fun _ i h => absurd h (Nat.not_lt_zero i), fun _ => by ext i h; omega⟩
  | succ n ih =>
    constructor
    · intro h i hi
      simp only [Memory.readVector] at h
      split at h
      · next u b hu hb =>
        obtain rfl := Option.some.inj h
        rcases Nat.lt_succ_iff_lt_or_eq.1 hi with hlt | rfl
        · rw [Vector.getElem_push_lt hlt]; exact ih.1 hu i hlt
        · simpa using hb
      · exact absurd h (by simp)
    · intro h
      have hu : Memory.readVector m addr n = some v.pop :=
        ih.2 fun i hi => by rw [h i (by omega)]; simp
      have hb := h n (by omega)
      simp only [Memory.readVector, hu, hb, Option.some.injEq]
      ext i hi
      rcases Nat.lt_succ_iff_lt_or_eq.1 hi with hlt | rfl
      · simp [Vector.getElem_push_lt hlt]
      · simp

end Sys2Proof.Machine
end

