-- ==== Sys2Proof/Laws/State.lean ====
section
/-! SUPPORT. What each named update leaves in each field of State, so that no proof unfolds a record update. Each is true
by `rfl`, after a `cases` that keeps simp from taking it for a definitional step: the kernel would have to check such a
step on the states at hand, and would run the rounds in them. The words `releaseTransients` leaves in `sched` and `work` are free values: no lemma says more of them. -/

namespace Sys2Proof.Machine

@[simp] theorem schedLoad_hash (blk : Block) (s : State) : (schedLoad blk s).hash = s.hash := by
  cases s; rfl
@[simp] theorem schedLoad_bitlen (blk : Block) (s : State) : (schedLoad blk s).bitlen = s.bitlen := by
  cases s; rfl
@[simp] theorem schedLoad_buflen (blk : Block) (s : State) : (schedLoad blk s).buflen = s.buflen := by
  cases s; rfl
@[simp] theorem schedLoad_phase (blk : Block) (s : State) : (schedLoad blk s).phase = s.phase := by
  cases s; rfl
@[simp] theorem schedLoad_buf (blk : Block) (s : State) : (schedLoad blk s).buf = s.buf := by
  cases s; rfl
@[simp] theorem schedLoad_sched (blk : Block) (s : State) : (schedLoad blk s).sched = loadSchedule blk s.sched := by
  cases s; rfl
@[simp] theorem schedLoad_work (blk : Block) (s : State) : (schedLoad blk s).work = s.work := by
  cases s; rfl
@[simp] theorem schedLoad_channel (blk : Block) (s : State) : (schedLoad blk s).channel = s.channel := by
  cases s; rfl
@[simp] theorem schedLoad_draws (blk : Block) (s : State) : (schedLoad blk s).draws = s.draws := by
  cases s; rfl

@[simp] theorem schedExpand_hash (s : State) : (schedExpand s).hash = s.hash := by
  cases s; rfl
@[simp] theorem schedExpand_bitlen (s : State) : (schedExpand s).bitlen = s.bitlen := by
  cases s; rfl
@[simp] theorem schedExpand_buflen (s : State) : (schedExpand s).buflen = s.buflen := by
  cases s; rfl
@[simp] theorem schedExpand_phase (s : State) : (schedExpand s).phase = s.phase := by
  cases s; rfl
@[simp] theorem schedExpand_buf (s : State) : (schedExpand s).buf = s.buf := by
  cases s; rfl
@[simp] theorem schedExpand_sched (s : State) : (schedExpand s).sched = expandSchedule s.sched := by
  cases s; rfl
@[simp] theorem schedExpand_work (s : State) : (schedExpand s).work = s.work := by
  cases s; rfl
@[simp] theorem schedExpand_channel (s : State) : (schedExpand s).channel = s.channel := by
  cases s; rfl
@[simp] theorem schedExpand_draws (s : State) : (schedExpand s).draws = s.draws := by
  cases s; rfl

@[simp] theorem workInit_hash (s : State) : (workInit s).hash = s.hash := by
  cases s; rfl
@[simp] theorem workInit_bitlen (s : State) : (workInit s).bitlen = s.bitlen := by
  cases s; rfl
@[simp] theorem workInit_buflen (s : State) : (workInit s).buflen = s.buflen := by
  cases s; rfl
@[simp] theorem workInit_phase (s : State) : (workInit s).phase = s.phase := by
  cases s; rfl
@[simp] theorem workInit_buf (s : State) : (workInit s).buf = s.buf := by
  cases s; rfl
@[simp] theorem workInit_sched (s : State) : (workInit s).sched = s.sched := by
  cases s; rfl
@[simp] theorem workInit_work (s : State) : (workInit s).work = workOf s.hash := by
  cases s; rfl
@[simp] theorem workInit_channel (s : State) : (workInit s).channel = s.channel := by
  cases s; rfl
@[simp] theorem workInit_draws (s : State) : (workInit s).draws = s.draws := by
  cases s; rfl

@[simp] theorem roundStep_hash (s : State) (t : Fin 64) : (roundStep s t).hash = s.hash := by
  cases s; rfl
@[simp] theorem roundStep_bitlen (s : State) (t : Fin 64) : (roundStep s t).bitlen = s.bitlen := by
  cases s; rfl
@[simp] theorem roundStep_buflen (s : State) (t : Fin 64) : (roundStep s t).buflen = s.buflen := by
  cases s; rfl
@[simp] theorem roundStep_phase (s : State) (t : Fin 64) : (roundStep s t).phase = s.phase := by
  cases s; rfl
@[simp] theorem roundStep_buf (s : State) (t : Fin 64) : (roundStep s t).buf = s.buf := by
  cases s; rfl
@[simp] theorem roundStep_sched (s : State) (t : Fin 64) : (roundStep s t).sched = s.sched := by
  cases s; rfl
@[simp] theorem roundStep_work (s : State) (t : Fin 64) : (roundStep s t).work = roundWork s.sched s.work t := by
  cases s; rfl
@[simp] theorem roundStep_channel (s : State) (t : Fin 64) : (roundStep s t).channel = s.channel := by
  cases s; rfl
@[simp] theorem roundStep_draws (s : State) (t : Fin 64) : (roundStep s t).draws = s.draws := by
  cases s; rfl

@[simp] theorem mixIn_hash (s : State) : (mixIn s).hash = addWork s.hash s.work := by
  cases s; rfl
@[simp] theorem mixIn_bitlen (s : State) : (mixIn s).bitlen = s.bitlen := by
  cases s; rfl
@[simp] theorem mixIn_buflen (s : State) : (mixIn s).buflen = s.buflen := by
  cases s; rfl
@[simp] theorem mixIn_phase (s : State) : (mixIn s).phase = s.phase := by
  cases s; rfl
@[simp] theorem mixIn_buf (s : State) : (mixIn s).buf = s.buf := by
  cases s; rfl
@[simp] theorem mixIn_sched (s : State) : (mixIn s).sched = s.sched := by
  cases s; rfl
@[simp] theorem mixIn_work (s : State) : (mixIn s).work = s.work := by
  cases s; rfl
@[simp] theorem mixIn_channel (s : State) : (mixIn s).channel = s.channel := by
  cases s; rfl
@[simp] theorem mixIn_draws (s : State) : (mixIn s).draws = s.draws := by
  cases s; rfl

@[simp] theorem releaseTransients_hash (s : State) : (releaseTransients s).hash = s.hash := by
  cases s; rfl
@[simp] theorem releaseTransients_bitlen (s : State) : (releaseTransients s).bitlen = s.bitlen := by
  cases s; rfl
@[simp] theorem releaseTransients_buflen (s : State) : (releaseTransients s).buflen = s.buflen := by
  cases s; rfl
@[simp] theorem releaseTransients_phase (s : State) : (releaseTransients s).phase = s.phase := by
  cases s; rfl
@[simp] theorem releaseTransients_buf (s : State) : (releaseTransients s).buf = s.buf := by
  cases s; rfl
@[simp] theorem releaseTransients_sched (s : State) : (releaseTransients s).sched = freeSchedule s.draws := by
  cases s; rfl
@[simp] theorem releaseTransients_work (s : State) : (releaseTransients s).work = freeWork s.draws := by
  cases s; rfl
@[simp] theorem releaseTransients_channel (s : State) : (releaseTransients s).channel = s.channel := by
  cases s; rfl
@[simp] theorem releaseTransients_draws (s : State) : (releaseTransients s).draws = s.draws + 72 := by
  cases s; rfl

@[simp] theorem resetEvent_hash (s : State) : (resetEvent s).hash = State.reset.hash := by
  cases s; rfl
@[simp] theorem resetEvent_bitlen (s : State) : (resetEvent s).bitlen = 0 := by
  cases s; rfl
@[simp] theorem resetEvent_buflen (s : State) : (resetEvent s).buflen = 0 := by
  cases s; rfl
@[simp] theorem resetEvent_phase (s : State) : (resetEvent s).phase = .none := by
  cases s; rfl
@[simp] theorem resetEvent_buf (s : State) : (resetEvent s).buf = [] := by
  cases s; rfl
@[simp] theorem resetEvent_sched (s : State) : (resetEvent s).sched = State.reset.sched := by
  cases s; rfl
@[simp] theorem resetEvent_work (s : State) : (resetEvent s).work = State.reset.work := by
  cases s; rfl
@[simp] theorem resetEvent_channel (s : State) : (resetEvent s).channel = s.channel := by
  cases s; rfl
@[simp] theorem resetEvent_draws (s : State) : (resetEvent s).draws = s.draws := by
  cases s; rfl

@[simp] theorem pushWord_hash (w : CommandWord) (s : State) : (pushWord w s).hash = s.hash := by
  cases s; rfl
@[simp] theorem pushWord_bitlen (w : CommandWord) (s : State) : (pushWord w s).bitlen = s.bitlen := by
  cases s; rfl
@[simp] theorem pushWord_buflen (w : CommandWord) (s : State) : (pushWord w s).buflen = s.buflen := by
  cases s; rfl
@[simp] theorem pushWord_phase (w : CommandWord) (s : State) : (pushWord w s).phase = s.phase := by
  cases s; rfl
@[simp] theorem pushWord_buf (w : CommandWord) (s : State) : (pushWord w s).buf = s.buf := by
  cases s; rfl
@[simp] theorem pushWord_sched (w : CommandWord) (s : State) : (pushWord w s).sched = s.sched := by
  cases s; rfl
@[simp] theorem pushWord_work (w : CommandWord) (s : State) : (pushWord w s).work = s.work := by
  cases s; rfl
@[simp] theorem pushWord_channel (w : CommandWord) (s : State) : (pushWord w s).channel = .command w :: s.channel := by
  cases s; rfl
@[simp] theorem pushWord_draws (w : CommandWord) (s : State) : (pushWord w s).draws = s.draws := by
  cases s; rfl

end Sys2Proof.Machine
end

