-- ==== Sys2Proof/Laws/Ops.lean ====
section
/-! SUPPORT. What each shared operation can do, said once: an answer `next` holds exactly under these conditions, and is
this state. -/

namespace Sys2Proof.Machine

section
variable {α β : Type} {s t : State}

@[simp] theorem andThen_next (a : α) (k : α → Answer β) : andThen (.next a) k = k a := rfl

@[simp] theorem andThen_fault (f : Fault) (k : α → Answer β) : andThen (.fault f) k = .fault f := rfl

@[simp] theorem andThen_refused (r : Refusal) (k : α → Answer β) : andThen (.refused r) k = .refused r := rfl

/-- A sequence of statements completes exactly when each of them does. -/
theorem andThen_eq_next {r : Answer α} {k : α → Answer β} {b : β} :
    andThen r k = .next b ↔ ∃ a, r = .next a ∧ k a = .next b := by
  cases r <;> simp

/-- `MemRead` answers exactly the values of bytes that exist, lie below `BUFLEN` and have been written. -/
theorem memRead_eq_next {addr n : Nat} {v : Vector Byte n} :
    memRead addr n s = .next v ↔
      addr + n ≤ 128 ∧ addr + n ≤ s.buflen.toNat ∧ ∀ i (h : i < n), Memory.read s.buf (addr + i) = some v[i] := by
  rw [← Memory.readVector_eq_some]
  unfold memRead bufCapacity
  split_ifs with h₁ h₂
  · exact ⟨fun e => (nomatch e), fun e => by omega⟩
  · exact ⟨fun e => (nomatch e), fun e => by omega⟩
  · cases h : Memory.readVector s.buf addr n
    · simp
    · simp only [Host.Outcome.next.injEq, Option.some.injEq]
      exact ⟨fun e => ⟨by omega, by omega, e⟩, fun e => e.2.2⟩

/-- `MemWrite` completes exactly when the addresses exist. -/
theorem memWrite_eq_next {addr : Nat} {v : List Byte} :
    memWrite addr v s = .next t ↔
      addr + v.length ≤ 128 ∧ t = { s with buf := Memory.writeList s.buf addr v } := by
  unfold memWrite bufCapacity
  split_ifs with h
  · exact ⟨fun e => (nomatch e), fun e => by omega⟩
  · simp only [Host.Outcome.next.injEq, eq_comm]
    exact ⟨fun e => ⟨by omega, e⟩, fun e => e.2⟩

/-- Bytes appended at `BUFLEN`. -/
theorem appendBytes_eq_next {v : List Byte} :
    appendBytes v s = .next t ↔
      s.buflen.toNat + v.length ≤ 128 ∧
        t = { s with
          buf := Memory.writeList s.buf s.buflen.toNat v
          buflen := s.buflen + BitVec.ofNat 8 v.length } := by
  unfold appendBytes
  simp only [andThen_eq_next, memWrite_eq_next]
  constructor
  · rintro ⟨u, ⟨h, rfl⟩, e⟩
    exact ⟨h, (Host.Outcome.next.inj e).symm⟩
  · rintro ⟨h, rfl⟩
    exact ⟨_, ⟨h, rfl⟩, rfl⟩

/-- A write to the buffer keeps its cells in canonical form and inside `BUF[0..127]`. -/
theorem memWrite_wf {addr : Nat} {v : List Byte} (h : memWrite addr v s = .next t) (hw : Memory.wf s.buf)
    (hr : ∀ c ∈ s.buf, c.1 < bufCapacity) : Memory.wf t.buf ∧ ∀ c ∈ t.buf, c.1 < bufCapacity := by
  obtain ⟨hl, rfl⟩ := memWrite_eq_next.1 h
  refine ⟨Memory.wf_writeList v hw addr, fun c hc => ?_⟩
  rcases Memory.mem_writeList hc with hc | hc
  · exact hr c hc
  · unfold bufCapacity
    omega

/-- So does an append. -/
theorem appendBytes_wf {v : List Byte} (h : appendBytes v s = .next t) (hw : Memory.wf s.buf)
    (hr : ∀ c ∈ s.buf, c.1 < bufCapacity) : Memory.wf t.buf ∧ ∀ c ∈ t.buf, c.1 < bufCapacity := by
  obtain ⟨hl, rfl⟩ := appendBytes_eq_next.1 h
  exact memWrite_wf (t := { s with buf := Memory.writeList s.buf s.buflen.toNat v }) (memWrite_eq_next.2 ⟨hl, rfl⟩) hw hr

/-- The cells after reset, and after the reset event, are in canonical form: there is none. -/
theorem reset_buf_wf : Memory.wf State.reset.buf ∧ ∀ s : State, Memory.wf (resetEvent s).buf :=
  ⟨List.Pairwise.nil, fun _ => List.Pairwise.nil⟩

/-- `UPD` and `FINAL` go on in `PHASE = ACTIVE` alone. -/
theorem inSession_eq_next {k : State → Answer State} :
    inSession s k = .next t ↔ s.phase = .active ∧ k s = .next t := by
  unfold inSession
  cases h : s.phase <;> simp

theorem inSession_active {k : State → Answer State} (h : s.phase = .active) : inSession s k = k s := by
  simp [inSession, h]

end

end Sys2Proof.Machine
end

