-- ==== Sys2Proof/Laws/Compress.lean ====
section
/-! SUPPORT. What `TRANSFORM` touches: the rounds change the working variables alone, and the whole of it leaves
everything but `H`, `W` and `a..h` alone. -/

namespace Sys2Proof.Machine

/-- The rounds on the state are the rounds on the working variables. -/
theorem foldl_roundStep (ts : List (Fin 64)) (s : State) :
    ts.foldl roundStep s = { s with work := ts.foldl (roundWork s.sched) s.work } := by
  induction ts generalizing s with
  | nil => rfl
  | cons t ts ih => rw [List.foldl_cons, ih]; rfl

theorem rounds_eq (s : State) :
    rounds s = { s with work := (List.finRange 64).foldl (roundWork s.sched) s.work } := by
  unfold rounds
  exact foldl_roundStep _ s

/-- `TRANSFORM` as one update of the three fields it writes. -/
theorem transform_eq (blk : Block) (s : State) :
    transform blk s =
      { s with
        hash := addWork s.hash
          ((List.finRange 64).foldl (roundWork (expandSchedule (loadSchedule blk s.sched))) (workOf s.hash))
        sched := expandSchedule (loadSchedule blk s.sched)
        work := (List.finRange 64).foldl (roundWork (expandSchedule (loadSchedule blk s.sched))) (workOf s.hash) } := by
  unfold transform
  rw [rounds_eq]
  rfl

@[simp] theorem transform_bitlen (blk : Block) (s : State) : (transform blk s).bitlen = s.bitlen := by rw [transform_eq]
@[simp] theorem transform_buflen (blk : Block) (s : State) : (transform blk s).buflen = s.buflen := by rw [transform_eq]
@[simp] theorem transform_phase (blk : Block) (s : State) : (transform blk s).phase = s.phase := by rw [transform_eq]
@[simp] theorem transform_buf (blk : Block) (s : State) : (transform blk s).buf = s.buf := by rw [transform_eq]
@[simp] theorem transform_channel (blk : Block) (s : State) : (transform blk s).channel = s.channel := by
  rw [transform_eq]
@[simp] theorem transform_draws (blk : Block) (s : State) : (transform blk s).draws = s.draws := by rw [transform_eq]

/-- `TRANSFORM` at a buffer address completes exactly when the 64 bytes there exist, are valid and have been written. -/
theorem transformAt_eq_next {base : Nat} {s t : State} :
    transformAt base s = .next t ↔
      ∃ blk : Block, (base + 64 ≤ 128 ∧ base + 64 ≤ s.buflen.toNat ∧
        ∀ i (h : i < 64), Memory.read s.buf (base + i) = some blk[i]) ∧ t = transform blk s := by
  unfold transformAt blockBytes
  simp only [andThen_eq_next, memRead_eq_next]
  refine exists_congr fun blk => and_congr_right fun _ => ?_
  simp [eq_comm]

end Sys2Proof.Machine
end

