-- ==== Sys2Proof/Laws/Commands.lean ====
section
/-! SUPPORT. What each command and each step can do, said once. -/

namespace Sys2Proof.Machine

section
variable {s t : State} {b : Byte}

/-- The flush of `UPD`: a full buffer is compressed and emptied, any other is left alone. -/
theorem flushFull_eq_next :
    flushFull s = .next t ↔
      (s.buflen.toNat ≠ 64 ∧ t = s) ∨
        (s.buflen.toNat = 64 ∧ ∃ blk : Block, (∀ i (h : i < 64), Memory.read s.buf i = some blk[i]) ∧
          t = releaseTransients { transform blk s with buflen := 0 }) := by
  unfold flushFull blockBytes
  split_ifs with h
  · simp only [andThen_eq_next, transformAt_eq_next, h, Host.Outcome.next.injEq]
    constructor
    · rintro ⟨u, ⟨blk, ⟨-, -, hb⟩, rfl⟩, rfl⟩
      exact .inr ⟨trivial, blk, by simpa using hb, rfl⟩
    · rintro (⟨h', -⟩ | ⟨-, blk, hb, rfl⟩)
      · exact absurd rfl h'
      · exact ⟨_, ⟨blk, ⟨by omega, by omega, by simpa using hb⟩, rfl⟩, rfl⟩
  · simp [h, eq_comm]

/-- `UPD` completes exactly in a session, below the ceiling, with room in the buffer; it appends, counts, flushes. -/
theorem execUpd_eq_next :
    execUpd b s = .next t ↔
      s.phase = .active ∧ s.bitlen.toNat ≤ 2 ^ 64 - 16 ∧ s.buflen.toNat + 1 ≤ 128 ∧
        flushFull { s with
          buf := Memory.write s.buf s.buflen.toNat b
          buflen := s.buflen + 1
          bitlen := s.bitlen + 8 } = .next t := by
  unfold execUpd lastBitlen
  rw [inSession_eq_next]
  refine and_congr_right fun _ => ?_
  split_ifs with h
  · simp only [andThen_eq_next, appendBytes_eq_next]
    constructor
    · rintro ⟨u, ⟨hr, rfl⟩, e⟩
      exact ⟨h, by simpa using hr, by simpa using e⟩
    · rintro ⟨-, hr, e⟩
      exact ⟨_, ⟨by simpa using hr, rfl⟩, by simpa using e⟩
  · exact ⟨fun e => (nomatch e), fun e => absurd e.1 h⟩

/-- `FINAL` completes exactly in a session whose buffer can be padded and flushed. -/
theorem execFinal_eq_next :
    execFinal s = .next t ↔
      s.phase = .active ∧ ∃ u v, padBuffer s = .next u ∧ flushPadded u = .next v ∧
        t = releaseTransients { v with buflen := 0, phase := .spent } := by
  unfold execFinal
  rw [inSession_eq_next]
  refine and_congr_right fun _ => ?_
  simp only [andThen_eq_next, Host.Outcome.next.injEq]
  constructor
  · rintro ⟨u, hu, v, hv, rfl⟩; exact ⟨u, v, hu, hv, rfl⟩
  · rintro ⟨u, v, hu, hv, rfl⟩; exact ⟨u, hu, v, hv, rfl⟩

/-- The flush of `FINAL`: one block, and the second where the padded buffer is two blocks long. -/
theorem flushPadded_eq_next :
    flushPadded s = .next t ↔
      ∃ blk : Block, (64 ≤ s.buflen.toNat ∧ ∀ i (h : i < 64), Memory.read s.buf i = some blk[i]) ∧
        ((s.buflen.toNat ≠ 128 ∧ t = transform blk s) ∨
          (s.buflen.toNat = 128 ∧ ∃ blk' : Block, (∀ i (h : i < 64), Memory.read s.buf (64 + i) = some blk'[i]) ∧
            t = transform blk' (transform blk s))) := by
  unfold flushPadded bufCapacity blockBytes
  simp only [andThen_eq_next, transformAt_eq_next]
  constructor
  · rintro ⟨u, ⟨blk, ⟨-, hl, hb⟩, rfl⟩, e⟩
    refine ⟨blk, ⟨by omega, by simpa using hb⟩, ?_⟩
    split_ifs at e with h
    · obtain ⟨blk', ⟨-, -, hb'⟩, rfl⟩ := transformAt_eq_next.1 e
      exact .inr ⟨by simpa using h, blk', by simpa using hb', rfl⟩
    · exact .inl ⟨by simpa using h, by simpa [eq_comm] using e⟩
  · rintro ⟨blk, ⟨hl, hb⟩, h⟩
    refine ⟨_, ⟨blk, ⟨by omega, by omega, by simpa using hb⟩, rfl⟩, ?_⟩
    rcases h with ⟨h, rfl⟩ | ⟨h, blk', hb', rfl⟩
    · simp [h]
    · rw [if_pos (by simpa using h)]
      exact transformAt_eq_next.2 ⟨blk', ⟨by omega, by simp [h], by simpa using hb'⟩, rfl⟩

/-- The registers the zero fill leaves alone. -/
theorem zeroFill_frame {fuel : Nat} (h : zeroFill fuel s = .next t) :
    t = { s with buf := t.buf, buflen := t.buflen } := by
  induction fuel generalizing s with
  | zero => cases h; rfl
  | succ n ih =>
    unfold zeroFill at h
    split_ifs at h with hc
    · cases h; rfl
    · obtain ⟨u, hu, hk⟩ := andThen_eq_next.1 h
      obtain ⟨-, rfl⟩ := appendBytes_eq_next.1 hu
      rw [ih hk]

/-- The zero fill of `z` bytes: where `z` is the distance to the next length that is 56 modulo 64, it appends exactly
`z` zero bytes. -/
theorem zeroFill_next {z fuel : Nat} (hz : z ≤ fuel) (hstop : (s.buflen.toNat + z) % 64 = 56)
    (hgo : ∀ k < z, (s.buflen.toNat + k) % 64 ≠ 56) (hroom : s.buflen.toNat + z ≤ 128) :
    zeroFill fuel s = .next { s with
      buf := Memory.writeList s.buf s.buflen.toNat (List.replicate z fillByte)
      buflen := s.buflen + BitVec.ofNat 8 z } := by
  induction z generalizing s fuel with
  | zero =>
    cases fuel with
    | zero => simp [zeroFill]
    | succ n => simp only [Nat.add_zero] at hstop; simp [zeroFill, blockBytes, suffixOffset, hstop]
  | succ z ih =>
    obtain ⟨n, rfl⟩ : ∃ n, fuel = n + 1 := ⟨fuel - 1, by omega⟩
    have h0 : s.buflen.toNat % 64 ≠ 56 := by simpa using hgo 0 (by omega)
    have happ := appendBytes_eq_next (s := s) (v := [fillByte]).2 ⟨by simp; omega, rfl⟩
    have hlen : (s.buflen + BitVec.ofNat 8 1).toNat = s.buflen.toNat + 1 := by
      simp only [BitVec.toNat_add, BitVec.toNat_ofNat]; omega
    unfold zeroFill
    rw [if_neg (by simpa [blockBytes, suffixOffset] using h0), happ, andThen_next]
    rw [ih (by omega) (by simp only [List.length_singleton, hlen]; rw [← hstop]; congr 1; omega)
      (by intro k hk; simp only [List.length_singleton, hlen]; simpa [Nat.add_comm, Nat.add_left_comm, Nat.add_assoc] using hgo (k + 1) (by omega))
      (by simp only [List.length_singleton, hlen]; omega)]
    simp only [List.length_singleton, hlen, List.replicate_succ, Memory.writeList_cons, Memory.writeList_nil]
    congr 2
    rw [BitVec.add_assoc]
    congr 1
    apply BitVec.eq_of_toNat_eq
    simp [Nat.add_comm]

/-- A step on a command word that decodes to a command is that command, the word taken from the channel. -/
theorem step_command {w : CommandWord} {es : List Event} {i : Instr} (hc : s.channel = .command w :: es)
    (hd : decode w = .command i) : step s = exec i { s with channel := es } := by
  simp [step, takeEvent, hc, hd]

/-- What one step can be, by the head of the channel. -/
theorem step_cases (h : step s = .next t) :
    (s.channel = [] ∧ t = s) ∨
      (∃ w i es, s.channel = .command w :: es ∧ decode w = .command i ∧ exec i { s with channel := es } = .next t) ∨
      (∃ es, s.channel = .reset :: es ∧ t = resetEvent { s with channel := es }) := by
  unfold step takeEvent at h
  rcases hc : s.channel with _ | ⟨_ | _ | _, es⟩ <;> simp only [hc] at h
  · cases h; exact .inl ⟨rfl, rfl⟩
  · next w =>
    cases hd : decode w with
    | command i => rw [hd] at h; exact .inr (.inl ⟨w, i, es, rfl, hd, h⟩)
    | reserved => rw [hd] at h; exact absurd h (by simp)
  · cases h; exact .inr (.inr ⟨es, rfl, rfl⟩)
  · exact absurd h (by simp)

/-- `runSteps` is the host's `Core.run` of this machine. -/
theorem runSteps_eq_core_run (k : Nat) (s : State) : Host.Core.run Sys2Proof.core k s = runSteps k s := by
  have on_next : ∀ (M : Host.Core) (k : Nat) (s s' : M.State), M.step s = .next s' → M.run (k + 1) s = M.run k s' :=
    fun M k s s' h => by rw [Host.Core.run, h]
  have on_fault : ∀ (M : Host.Core) (k : Nat) (s : M.State) (f : M.Fault), M.step s = .fault f →
      M.run (k + 1) s = .fault f := fun M k s f h => by rw [Host.Core.run, h]
  have on_refused : ∀ (M : Host.Core) (k : Nat) (s : M.State) (r : M.Refusal), M.step s = .refused r →
      M.run (k + 1) s = .refused r := fun M k s r h => by rw [Host.Core.run, h]
  induction k generalizing s with
  | zero => rfl
  | succ k ih =>
    cases h : step s with
    | next s' =>
      have e : runSteps (k + 1) s = runSteps k s' := by rw [runSteps, h]; rfl
      exact (on_next Sys2Proof.core k s s' h).trans ((ih s').trans e.symm)
    | fault f =>
      have e : runSteps (k + 1) s = .fault f := by rw [runSteps, h]; rfl
      exact (on_fault Sys2Proof.core k s f h).trans e.symm
    | refused r =>
      have e : runSteps (k + 1) s = .refused r := by rw [runSteps, h]; rfl
      exact (on_refused Sys2Proof.core k s r h).trans e.symm

@[simp] theorem runSteps_zero (s : State) : runSteps 0 s = .next s := rfl

theorem runSteps_succ (k : Nat) (s : State) : runSteps (k + 1) s = andThen (step s) (runSteps k) := rfl

/-- A run in two parts. -/
theorem runSteps_add (j k : Nat) (s : State) : runSteps (j + k) s = andThen (runSteps j s) (runSteps k) := by
  induction j generalizing s with
  | zero => simp
  | succ j ih =>
    rw [show j + 1 + k = (j + k) + 1 by omega, runSteps_succ, runSteps_succ]
    cases step s with
    | next s' => exact ih s'
    | fault r => rfl
    | refused r => rfl

end

end Sys2Proof.Machine
end

