-- ==== Sys2Proof/Laws/Hash.lean ====
section
/-! SUPPORT. The blocks of a message that grows, and the sizes of its padding. -/

namespace Sys2Proof.Machine

theorem blockAt_append (m c : List Byte) (o : Nat) (h : o + 64 ≤ m.length) : blockAt (m ++ c) o = blockAt m o := by
  unfold blockAt
  congr 1
  funext i
  rw [List.getD_append _ _ _ _ (by omega)]

/-- Appending bytes keeps the complete blocks and adds those it completes. -/
theorem blocksOf_append (m c : List Byte) :
    blocksOf (m ++ c) = blocksOf m ++
      (List.range ((m.length + c.length) / 64 - m.length / 64)).map fun k =>
        blockAt (m ++ c) (64 * (m.length / 64 + k)) := by
  unfold blocksOf
  have h : (m ++ c).length / 64 = m.length / 64 + ((m.length + c.length) / 64 - m.length / 64) := by
    rw [List.length_append]
    omega
  have e : ((List.range (m.length / 64)).map fun k => blockAt (m ++ c) (64 * k)) =
      (List.range (m.length / 64)).map fun k => blockAt m (64 * k) :=
    List.map_congr_left fun k hk => blockAt_append _ _ _ (by have := List.mem_range.1 hk; omega)
  rw [h, List.range_add, List.map_append, List.map_map, e]
  rfl

theorem length_be64bytes (v : BitVec 64) : (be64bytes v).length = 8 := rfl

theorem length_pad (m : List Byte) : (pad m).length = m.length + 9 + padZeros m.length := by
  simp [pad, length_be64bytes]
  omega

end Sys2Proof.Machine
end

