-- ==== Sys2Proof/Laws/Instances.lean ====
section
/-! SUPPORT. What one step of a bank does to each instance. -/

namespace Sys2Proof.Machine

section
variable {n : Nat} (bank : Bank n) (k : Fin n)

@[simp] theorem Bank.start_getElem (states : Vector State n) (i : Nat) (h : i < n) :
    (Bank.start states)[i] = .next states[i] := by
  simp [Bank.start]

/-- The instance that is stepped. -/
theorem stepInstance_same : (stepInstance bank k)[k.val] = andThen bank[k.val] step := by
  simp [stepInstance]

/-- The others. -/
theorem stepInstance_other {i : Nat} (hi : i < n) (h : i ≠ k.val) : (stepInstance bank k)[i] = bank[i] := by
  unfold stepInstance
  rw [Vector.getElem_set_ne]
  exact h.symm

@[simp] theorem runInstances_nil : runInstances [] bank = bank := rfl

theorem runInstances_cons (ks : List (Fin n)) :
    runInstances (k :: ks) bank = runInstances ks (stepInstance bank k) := rfl

end

end Sys2Proof.Machine
end

