-- ==== Sys2Proof/Laws/PerInstr.lean ====
section
/-! SUPPORT. One statement per command, about the command as syntax: its operand is in range, and its word is one the
decoder reads as it and no other row of the opcode table matches (30_encoding.md R71 to R75). -/

namespace Sys2Proof.Laws.Encoding

/-- The word's `op` field names the command, and decoding the word gives the command back. -/
def Statement (i : Instr) : Prop :=
  i.wf = true ∧ opField (encode i) ≠ 0b00#2 ∧ decode (encode i) = .command i

theorem init : Statement .init := by
  refine ⟨rfl, by decide, by decide⟩

theorem upd (b : Byte) : Statement (.upd b) := by
  refine ⟨rfl, ?_, ?_⟩
  · revert b; decide +kernel
  · revert b; decide +kernel

theorem final : Statement .final := by
  refine ⟨rfl, by decide, by decide⟩

end Sys2Proof.Laws.Encoding
end

