-- ==== Sys2Proof/Laws/Schedule.lean ====
section
/-! SUPPORT. What each word of the schedule is, and that it does not depend on what `W` held before. -/

namespace Sys2Proof.Machine

theorem foldl_loadWord (blk : Block) (ts : List (Fin 16)) (w : Vector Word 64) (k : Nat) (hk : k < 64) :
    (ts.foldl (loadWord blk) w)[k] =
      if h : k < 16 ∧ (⟨k % 16, Nat.mod_lt _ (by omega)⟩ : Fin 16) ∈ ts then
        be32 (blk[4 * k]'(by omega)) (blk[4 * k + 1]'(by omega)) (blk[4 * k + 2]'(by omega)) (blk[4 * k + 3]'(by omega))
      else w[k] := by
  induction ts generalizing w with
  | nil => simp
  | cons t ts ih =>
    rw [List.foldl_cons, ih]
    by_cases h16 : k < 16
    · have hm : k % 16 = k := Nat.mod_eq_of_lt h16
      by_cases hin : (⟨k % 16, Nat.mod_lt _ (by omega)⟩ : Fin 16) ∈ ts
      · rw [dif_pos ⟨h16, hin⟩, dif_pos ⟨h16, List.mem_cons_of_mem _ hin⟩]
      · rw [dif_neg (by tauto)]
        by_cases ht : t.val = k
        · rw [dif_pos ⟨h16, List.mem_cons.2 (.inl (Fin.ext (by simp [hm, ht])))⟩]
          subst ht
          simp [loadWord]
        · rw [dif_neg]
          · simp [loadWord, Vector.getElem_set_ne, ht]
          · rintro ⟨_, h⟩
            rcases List.mem_cons.1 h with h | h
            · apply ht
              rw [← h]
              simp [hm]
            · exact hin h
    · rw [dif_neg (by tauto), dif_neg (by tauto)]
      simp only [loadWord]
      rw [Vector.getElem_set_ne]
      omega

/-- The loaded words are the block's. -/
theorem loadSchedule_getElem (blk : Block) (w : Vector Word 64) (k : Nat) (hk : k < 16) :
    (loadSchedule blk w)[k] = be32 blk[4 * k] blk[4 * k + 1] blk[4 * k + 2] blk[4 * k + 3] := by
  unfold loadSchedule
  rw [foldl_loadWord, dif_pos ⟨hk, List.mem_finRange _⟩]

theorem foldl_expandWord (w : Vector Word 64) (n : Nat) (hn : n ≤ 48) :
    let v := ((List.finRange 48).take n).foldl expandWord w
    (∀ k (hk : k < 64), k < 16 ∨ 16 + n ≤ k → v[k] = w[k]) ∧
      ∀ k (hk : k < 64) (h16 : 16 ≤ k), k < 16 + n →
        v[k] = sig1 v[k - 2] + v[k - 7] + sig0 v[k - 15] + v[k - 16] := by
  intro v
  induction n with
  | zero => exact ⟨fun k hk _ => by simp [v], fun k _ _ _ => by omega⟩
  | succ n ih =>
    obtain ⟨i1, i2⟩ := ih (by omega)
    have e : (List.finRange 48).take (n + 1) = (List.finRange 48).take n ++ [⟨n, by omega⟩] := by
      rw [List.take_add_one, List.getElem?_eq_getElem (by simp; omega)]
      simp
    have hv : v = expandWord (((List.finRange 48).take n).foldl expandWord w) ⟨n, by omega⟩ := by
      simp only [v]
      rw [e, List.foldl_append, List.foldl_cons, List.foldl_nil]
    generalize ((List.finRange 48).take n).foldl expandWord w = u at *
    have hset : expandWord u ⟨n, by omega⟩ = u.set (n + 16) (sig1 u[n + 14] + u[n + 9] + sig0 u[n + 1] + u[n]) := by
      simp [expandWord, BitVec.add_assoc]
    rw [hset] at hv
    clear_value v
    subst hv
    constructor
    · intro k hk h
      rw [Vector.getElem_set_ne _ _ (by omega)]
      exact i1 k hk (by omega)
    · intro k hk h16 h
      rcases Nat.lt_or_ge k (16 + n) with h' | h'
      · rw [Vector.getElem_set_ne _ _ (by omega), Vector.getElem_set_ne _ _ (by omega),
          Vector.getElem_set_ne _ _ (by omega), Vector.getElem_set_ne _ _ (by omega),
          Vector.getElem_set_ne _ _ (by omega)]
        exact i2 k hk h16 h'
      · obtain rfl : k = n + 16 := by omega
        rw [Vector.getElem_set_self, Vector.getElem_set_ne _ _ (by omega), Vector.getElem_set_ne _ _ (by omega),
          Vector.getElem_set_ne _ _ (by omega), Vector.getElem_set_ne _ _ (by omega)]
        rfl

/-- Expansion keeps words 0 to 15, and each later word is the sum of its four. -/
theorem expandSchedule_getElem (w : Vector Word 64) :
    (∀ k (hk : k < 16), (expandSchedule w)[k] = w[k]) ∧
      ∀ k (hk : k < 64) (h16 : 16 ≤ k),
        (expandSchedule w)[k] = sig1 (expandSchedule w)[k - 2] + (expandSchedule w)[k - 7] +
          sig0 (expandSchedule w)[k - 15] + (expandSchedule w)[k - 16] := by
  unfold expandSchedule
  have h := foldl_expandWord w 48 (by omega)
  have e : (List.finRange 48).take 48 = List.finRange 48 := by simp
  simp only [e] at h
  exact ⟨fun k hk => h.1 k (by omega) (.inl hk), fun k hk h16 => h.2 k hk h16 (by omega)⟩

/-- The schedule of a block does not depend on what the storage held. -/
theorem expandSchedule_loadSchedule (blk : Block) (w w' : Vector Word 64) :
    expandSchedule (loadSchedule blk w) = expandSchedule (loadSchedule blk w') := by
  ext1 k hk
  induction k using Nat.strong_induction_on with
  | _ k ih =>
    rcases Nat.lt_or_ge k 16 with h | h
    · rw [(expandSchedule_getElem _).1 k h, (expandSchedule_getElem _).1 k h, loadSchedule_getElem _ _ _ h,
        loadSchedule_getElem _ _ _ h]
    · rw [(expandSchedule_getElem _).2 k hk h, (expandSchedule_getElem _).2 k hk h, ih (k - 2) (by omega) (by omega),
        ih (k - 7) (by omega) (by omega), ih (k - 15) (by omega) (by omega), ih (k - 16) (by omega) (by omega)]

end Sys2Proof.Machine
end

