-- ==== Sys2Proof/Laws/Session.lean ====
section
/-! SUPPORT. A command neither reads nor writes the channel, and the registers it leaves alone; sequences of commands. -/

namespace Sys2Proof.Machine

/-- The state with another channel. -/
def State.withChannel (s : State) (es : List Event) : State := { s with channel := es }

section
variable (es : List Event)

theorem memWrite_withChannel (a : Nat) (v : List Byte) (s : State) :
    memWrite a v (s.withChannel es) = andThen (memWrite a v s) fun t => .next (t.withChannel es) := by
  unfold memWrite
  split_ifs <;> rfl

theorem appendBytes_withChannel (v : List Byte) (s : State) :
    appendBytes v (s.withChannel es) = andThen (appendBytes v s) fun t => .next (t.withChannel es) := by
  unfold appendBytes
  rw [show (s.withChannel es).buflen = s.buflen from rfl, memWrite_withChannel]
  cases memWrite s.buflen.toNat v s <;> rfl

theorem transform_withChannel (blk : Block) (s : State) :
    transform blk (s.withChannel es) = (transform blk s).withChannel es := by
  rw [transform_eq, transform_eq]
  rfl

theorem transformAt_withChannel (base : Nat) (s : State) :
    transformAt base (s.withChannel es) = andThen (transformAt base s) fun t => .next (t.withChannel es) := by
  unfold transformAt
  rw [show memRead base blockBytes (s.withChannel es) = memRead base blockBytes s from rfl]
  cases memRead base blockBytes s with
  | next blk => exact congrArg _ (transform_withChannel es blk s)
  | fault => rfl
  | refused => rfl

theorem zeroFill_withChannel (fuel : Nat) (s : State) :
    zeroFill fuel (s.withChannel es) = andThen (zeroFill fuel s) fun t => .next (t.withChannel es) := by
  induction fuel generalizing s with
  | zero => rfl
  | succ n ih =>
    unfold zeroFill
    rw [show (s.withChannel es).buflen = s.buflen from rfl, appendBytes_withChannel]
    split_ifs
    · rfl
    · cases appendBytes [fillByte] s <;> simp [ih]

theorem padBuffer_withChannel (s : State) :
    padBuffer (s.withChannel es) = andThen (padBuffer s) fun t => .next (t.withChannel es) := by
  unfold padBuffer
  rw [appendBytes_withChannel]
  cases appendBytes [markerByte] s with
  | next t =>
    simp only [andThen_next]
    rw [zeroFill_withChannel]
    cases zeroFill 63 t with
    | next u => exact appendBytes_withChannel es (be64bytes u.bitlen) u
    | fault => rfl
    | refused => rfl
  | fault => rfl
  | refused => rfl

theorem flushFull_withChannel (s : State) :
    flushFull (s.withChannel es) = andThen (flushFull s) fun t => .next (t.withChannel es) := by
  unfold flushFull
  rw [show (s.withChannel es).buflen = s.buflen from rfl, transformAt_withChannel]
  split_ifs
  · cases transformAt 0 s <;> rfl
  · rfl

theorem flushPadded_withChannel (s : State) :
    flushPadded (s.withChannel es) = andThen (flushPadded s) fun t => .next (t.withChannel es) := by
  unfold flushPadded
  rw [transformAt_withChannel]
  cases transformAt 0 s with
  | next t =>
    simp only [andThen_next]
    rw [show (t.withChannel es).buflen = t.buflen from rfl]
    split_ifs
    · exact transformAt_withChannel es blockBytes t
    · rfl
  | fault => rfl
  | refused => rfl

/-- What waits on the channel makes no difference to a command, and stays where it is. -/
theorem exec_withChannel (i : Instr) (s : State) :
    exec i (s.withChannel es) = andThen (exec i s) fun t => .next (t.withChannel es) := by
  cases i with
  | init => rfl
  | upd b =>
    show execUpd b _ = andThen (execUpd b s) _
    unfold execUpd inSession
    simp only [show (s.withChannel es).phase = s.phase from rfl, show (s.withChannel es).bitlen = s.bitlen from rfl]
    cases s.phase <;> simp only [andThen_refused]
    split_ifs
    · rw [appendBytes_withChannel]
      cases appendBytes [b] s with
      | next t => exact flushFull_withChannel es { t with bitlen := t.bitlen + 8 }
      | fault => rfl
      | refused => rfl
    · rfl
  | final =>
    show execFinal _ = andThen (execFinal s) _
    unfold execFinal inSession
    simp only [show (s.withChannel es).phase = s.phase from rfl]
    cases s.phase <;> simp only [andThen_refused]
    rw [padBuffer_withChannel]
    cases padBuffer s with
    | next t =>
      simp only [andThen_next]
      rw [flushPadded_withChannel]
      cases flushPadded t <;> rfl
    | fault => rfl
    | refused => rfl

end

section
variable {s t : State}

/-- The padding writes the buffer and its length alone. -/
theorem padBuffer_frame (h : padBuffer s = .next t) : t = { s with buf := t.buf, buflen := t.buflen } := by
  unfold padBuffer at h
  obtain ⟨u, hu, h'⟩ := andThen_eq_next.1 h
  obtain ⟨v, hv, hw⟩ := andThen_eq_next.1 h'
  obtain ⟨-, rfl⟩ := appendBytes_eq_next.1 hu
  obtain ⟨-, rfl⟩ := appendBytes_eq_next.1 hw
  rw [zeroFill_frame hv]

theorem execAll_append (is js : List Instr) (s : State) :
    execAll (is ++ js) s = andThen (execAll is s) (execAll js) := by
  induction is generalizing s with
  | nil => rfl
  | cons i is ih =>
    simp only [List.cons_append, execAll]
    cases exec i s <;> simp [ih]

end

end Sys2Proof.Machine
end

