-- ==== Sys2Proof/Tests/Slice0.lean ====
section
/-! SUPPORT. The model's own tests. Every expected value is taken from the spec: the vectors V1 to V72 and S1, S2 of
95_test_vectors.md and the examples of the rules. Then one witness for each obligation with hypotheses: a state and
operands that meet all of them.

The tests are checked one after another: each kernel evaluation has a thread of its own, and all at once they exceed the
memory limit of the check. -/

set_option Elab.async false

namespace Sys2Proof.Machine

/-! Helpers. -/

/-- A state in phase `p` with `BITLEN = n`, the bytes `m` pending, and the initial hash state. -/
def testState (p : Phase) (n : Nat) (m : List Byte) : State :=
  { State.reset with
    phase := p, bitlen := BitVec.ofNat 64 n, buflen := BitVec.ofNat 8 m.length, buf := Memory.writeList [] 0 m, hash := iv }

/-- A session that has taken the bytes `m`, fewer than 64 of them. -/
def inSessionWith (m : List Byte) : State := testState .active (8 * m.length) m

/-- `n` bytes `0x61`. -/
def aBytes (n : Nat) : List Byte := List.replicate n 0x61#8

/-- The state with these events on its channel. -/
def sends (s : State) (es : List Event) : State := { s with channel := es }

/-- The answer is a next state that `p` accepts. -/
def nextIs {α : Type} (r : Answer α) (p : α → Bool) : Bool :=
  match r with
  | .next t => p t
  | .fault _ => false
  | .refused _ => false

/-- The answer is this refusal. -/
def refusedAs {α : Type} (r : Answer α) (x : Refusal) : Bool :=
  match r with
  | .next _ => false
  | .fault _ => false
  | .refused y => decide (y = x)

theorem of_nextIs {α : Type} {r : Answer α} {p : α → Bool} (h : nextIs r p = true) : ∃ t, r = .next t ∧ p t = true := by
  cases r with
  | next t => exact ⟨t, rfl, h⟩
  | fault f => exact absurd h (by simp [nextIs])
  | refused x => exact absurd h (by simp [nextIs])

theorem of_refusedAs {α : Type} {r : Answer α} {x : Refusal} (h : refusedAs r x = true) : r = .refused x := by
  cases r with
  | next t => exact absurd h (by simp [refusedAs])
  | fault f => exact absurd h (by simp [refusedAs])
  | refused y => exact congrArg _ (by simpa [refusedAs] using h)

/-- A step on a state whose channel holds the one command of a test is that test. -/
theorem step_sends {s : State} {w : CommandWord} {i : Instr} (hd : decode w = .command i) (hc : s.channel = []) :
    step (sends s [.command w]) = exec i s := by
  rw [step_command (s := sends s [.command w]) rfl hd]
  cases s
  simp only at hc
  subst hc
  rfl

theorem pendingHeld_of_isSome {s : State}
    (h : ∀ a ∈ List.range s.buflen.toNat, (Memory.read s.buf a).isSome = true) : PendingHeld s :=
  fun a ha => Option.isSome_iff_exists.1 (h a (List.mem_range.2 ha))

/-! Decoding: words written out from 30_encoding.md R71 to R76 (V50). -/

theorem test_decode_init : decode 0b0100000000#10 = .command .init := by decide
theorem test_decode_upd :
    decode 0b1000000000#10 = .command (.upd 0x00#8) ∧ decode 0b1001100001#10 = .command (.upd 0x61#8) ∧
      decode 0b1010000000#10 = .command (.upd 0x80#8) ∧ decode 0b1011111111#10 = .command (.upd 0xff#8) := by decide
theorem test_decode_final : decode 0b1100000000#10 = .command .final := by decide
theorem test_decode_reserved :
    ∀ w ∈ [0x000#10, 0x001#10, 0x0ff#10, 0x101#10, 0x1ff#10, 0x301#10, 0x380#10, 0x3ff#10], decode w = .reserved := by
  decide +kernel
/-- The table numbers its bits as the word does; bits above bit 9 make no command. -/
theorem test_decode_table_word :
    decodeTableWord 16 0x100 = some .init ∧ decodeTableWord 10 0x2ff = some (.upd 0xff#8) ∧
      decodeTableWord 16 0x300 = some .final ∧ decodeTableWord 16 0x000 = none ∧ decodeTableWord 16 0x500 = none := by
  decide

/-! What is ill formed: reserved words (R201); sequences outside `(INIT UPD* (FINAL)?)*` (R193). Every command is well
formed by its type, and the one check of an operand's range is the assembler's (R81). -/

theorem test_wellformed_words : wordWf 0x100#10 = true ∧ wordWf 0x200#10 = true ∧ wordWf 0x300#10 = true := by decide
theorem test_illformed_words : wordWf 0x000#10 = false ∧ wordWf 0x101#10 = false ∧ wordWf 0x3ff#10 = false := by decide
theorem test_wellformed_sequences :
    sessionsWf [] = true ∧ sessionsWf [.init, .init, .upd 0x61#8, .final, .init, .final] = true := by decide +kernel
theorem test_illformed_sequences :
    sessionsWf [.upd 0x61#8] = false ∧ sessionsWf [.final] = false ∧ sessionsWf [.init, .final, .final] = false ∧
      sessionsWf [.init, .final, .upd 0x61#8] = false := by decide +kernel
theorem test_illformed_at_the_ceiling :
    sessionsFrom (.inside (2 ^ 61 - 2)) [.upd 0x61#8] = true ∧ sessionsFrom (.inside (2 ^ 61 - 1)) [.upd 0x61#8] = false := by
  decide +kernel
theorem test_assembler_refuses :
    assembleLine "UPD 0x6".toList = none ∧ assembleLine "UPD 256".toList = none ∧ assembleLine "init".toList = none ∧
      assembleLine "FINAL 0".toList = none ∧ assembleLine "UPDATE 5".toList = none := by decide +kernel
/-- R81, R82, R83, V71. -/
theorem test_assembler :
    assemble "INIT ; start\nUPD 'a'\nUPD 0x62\nUPD 99\n\nFINAL".toList =
        some [.init, .upd 0x61#8, .upd 0x62#8, .upd 0x63#8, .final] ∧
      assembleLine "HASH \"abc\"".toList = some [.init, .upd 0x61#8, .upd 0x62#8, .upd 0x63#8, .final] ∧
      assembleLine "UPDATE [0x61, 98, 'c']".toList = some [.upd 0x61#8, .upd 0x62#8, .upd 0x63#8] ∧
      assembleLine "UPDATE \"\t;\"".toList = some [.upd 0x09#8, .upd 0x3b#8] ∧
      assembleLine "UPDATE \"\"".toList = some [] := by decide +kernel

/-! The bit-operations layer. -/

/-- V1. -/
theorem test_add32 :
    add32 0xffffffff 1 = 0 ∧ add32 0xfffffffe 3 = 1 ∧ add32 0xbb67ae85 0xd39a2165 = 0x8f01cfea ∧
      sum32 [0x5be0cd19, 0x3587272b, 0x1f85c98c, 0x428a2f98, 0x61626380] = 0x54da50e8 := by decide
/-- V2, V3. -/
theorem test_rotr_shr :
    rotr 0x80000001 1 = 0xc0000000 ∧ rotr 0x12345678 7 = 0xf02468ac ∧ rotr 0x12345678 25 = 0x1a2b3c09 ∧
      shr 0x80000001 3 = 0x10000000 ∧ shr 0x12345678 10 = 0x00048d15 ∧ shr 0x80000001 31 = 1 := by decide
/-- V4, V5. -/
theorem test_ch_maj :
    ch 0x510e527f 0x9b05688c 0x1f83d9ab = 0x1f85c98c ∧ ch 0xf0f0f0f0 0xaaaaaaaa 0x55555555 = 0xa5a5a5a5 ∧
      maj 0x6a09e667 0xbb67ae85 0x3c6ef372 = 0x3a6fe667 ∧ maj 0x0f0f0f0f 0xaaaaaaaa 0x55555555 = 0x0f0f0f0f := by decide
/-- V6 to V9. -/
theorem test_sigmas :
    ep0 0x12345678 = 0x66146474 ∧ ep1 0x12345678 = 0x3561abda ∧ sig0 0x12345678 = 0xe7fce6ee ∧
      sig1 0x12345678 = 0xa1f78649 ∧ sig0 0xffffffff = 0x1fffffff ∧ sig1 0xffffffff = 0x003fffff ∧
      ep0 0x6a09e667 = 0xce20b47e ∧ ep1 0x510e527f = 0x3587272b ∧ sig0 0x61626380 = 0x940e90ef ∧
      sig1 0x00000018 = 0x000f0000 := by decide
/-- V10. -/
theorem test_byte_order :
    be32 0x61 0x62 0x63 0x80 = 0x61626380 ∧ be32bytes 0xba7816bf = [0xba, 0x78, 0x16, 0xbf] ∧
      be64bytes 0x0102030405060708 = [1, 2, 3, 4, 5, 6, 7, 8] ∧ be64bytes 0x1c0 = [0, 0, 0, 0, 0, 0, 1, 0xc0] ∧
      hex8 0x0000000a = "0000000a".toList ∧ (hex8 0x0000000a).map asciiByte = [0x30, 0x30, 0x30, 0x30, 0x30, 0x30, 0x30, 0x61] := by
  decide +kernel
/-- V11. -/
theorem test_constant_tables :
    roundConstants.toList.foldl (· ^^^ ·) 0 = 0x95c49cf5 ∧ sum32 roundConstants.toList = 0x941d1755 ∧
      (hashWords iv).foldl (· ^^^ ·) 0 = 0xc62760eb ∧ sum32 (hashWords iv) = 0x6ea8df67 := by decide +kernel

/-! The compression core. -/

/-- The padded block of `"abc"` (V20). -/
def abcBlock : Block := blockAt (pad [0x61#8, 0x62#8, 0x63#8]) 0

/-- V20. -/
theorem test_schedule :
    (schedule abcBlock)[15] = 0x00000018 ∧ (schedule abcBlock)[18] = 0x7da86405 ∧ (schedule abcBlock)[31] = 0xd3b7973b ∧
      (schedule abcBlock)[63] = 0x12b1edeb := by decide +kernel
/-- V25. -/
theorem test_round :
    roundWork (Vector.replicate 64 0) ⟨1, 2, 3, 4, 5, 6, 7, 8⟩ 0 =
        ⟨0x97323629, 1, 2, 3, 0x572a322a, 5, 6, 7⟩ ∧
      roundWork (Vector.replicate 64 0xffffffff)
          ⟨0xffffffff, 0xffffffff, 0xffffffff, 0xffffffff, 0xffffffff, 0xffffffff, 0xffffffff, 0xffffffff⟩ 63 =
        ⟨0xc67178ec, 0xffffffff, 0xffffffff, 0xffffffff, 0xc67178ed, 0xffffffff, 0xffffffff, 0xffffffff⟩ := by
  decide +kernel

/-! The commands, one step each. -/

/-- R130's example, from the state after reset: the step takes the word from the channel. -/
theorem test_init :
    nextIs (step (State.reset.withFetchWord 16 0x100)) (fun t => t.hash = iv ∧ t.bitlen = 0 ∧ t.buflen = 0 ∧
      t.phase = .active ∧ t.digestValid = false ∧ t.channel = []) = true := by decide +kernel
/-- R131's example: the first byte. -/
theorem test_upd :
    nextIs (exec (.upd 0x61#8) (inSessionWith [])) (fun t => Memory.read t.buf 0 = some 0x61#8 ∧ t.buflen = 1 ∧
      t.bitlen = 8 ∧ t.hash = iv) = true := by decide +kernel
/-- V34: the byte that fills the block. -/
theorem test_upd_flush :
    nextIs (exec (.upd 0x61#8) (inSessionWith (aBytes 63))) (fun t => t.hash =
      ⟨0xdf5bb81c, 0xe81e0626, 0xfb45a894, 0x4fd40f31, 0xb25e6816, 0xd6d499c1, 0xab904929, 0x00635e66⟩ ∧
        t.buflen = 0 ∧ t.bitlen = 512) = true := by decide +kernel
/-- S2: one block. -/
theorem test_final_abc :
    nextIs (exec .final (inSessionWith [0x61#8, 0x62#8, 0x63#8])) (fun t => t.phase = .spent ∧ t.bitlen = 24 ∧
      digestHex t.hash = "ba7816bf8f01cfea414140de5dae2223b00361a396177a9cb410ff61f20015ad".toList) = true := by
  decide +kernel
/-- V31: two blocks. -/
theorem test_final_two_blocks :
    nextIs (exec .final (inSessionWith (aBytes 56))) (fun t => t.buflen = 0 ∧
      digestHex t.hash = "b35439a4ac6f0948b6d6f9e3c6af0f5f590ce20f1bde7090ef7970686ec6738a".toList) = true := by
  decide +kernel
/-- S1 (corrected, 90_conflicts.md C1), by the closed form. -/
theorem test_sha256_empty :
    digestHex (sha256 []) = "e3b0c44298fc1c149afbf4c8996fb92427ae41e4649b934ca495991b7852b855".toList := by
  decide +kernel
/-- V60 to V69: each reason, and the order of R179. -/
theorem test_refusals :
    refusedAs (step (sends State.reset [.command 0x261#10])) .commandWithoutSession = true ∧
      refusedAs (step (sends State.reset [.command 0x300#10])) .commandWithoutSession = true ∧
      refusedAs (step (sends (testState .spent 8 []) [.command 0x262#10])) .commandInSpentPhase = true ∧
      refusedAs (step (sends (testState .spent 0 []) [.command 0x300#10])) .commandInSpentPhase = true ∧
      refusedAs (step (sends (testState .spent 0 []) [.command 0x000#10])) .reservedEncoding = true ∧
      refusedAs (step (sends State.reset [.command 0x0ff#10])) .reservedEncoding = true := by decide +kernel
/-- V64: the last byte of the largest message, and the one after it. -/
theorem test_ceiling :
    nextIs (exec (.upd 0x61#8) (testState .active (2 ^ 64 - 16) (aBytes 62))) (fun t => t.bitlen = 0xfffffffffffffff8 ∧
      t.buflen = 63) = true ∧
      refusedAs (exec (.upd 0x61#8) (testState .active (2 ^ 64 - 8) (aBytes 63))) .bitLengthOverflow = true := by
  decide +kernel
/-- R60: a byte at or above `BUFLEN` holds no value, be its cell there. -/
theorem test_stale_byte :
    refusedAs (memRead 0 1 { inSessionWith (aBytes 1) with buflen := 0 }) .byteHoldsNoValue = true ∧
      Memory.read (inSessionWith (aBytes 1)).buf 0 = some 0x61#8 := by decide +kernel

/-! Witnesses: hypotheses of the obligations met together, each clause at the ends of its range. -/

/-- The invariant holds of a session of few bytes, of a spent session, and after reset. -/
theorem witness_machineInv_empty : MachineInv (inSessionWith []) :=
  ⟨by decide +kernel, by decide +kernel, fun _ => by decide +kernel, fun _ => by decide +kernel,
    fun _ => pendingHeld_of_isSome (by decide +kernel), fun h => (nomatch h)⟩

theorem witness_machineInv_active : MachineInv (inSessionWith [0x61#8, 0x62#8, 0x63#8]) :=
  ⟨by decide +kernel, by decide +kernel, fun _ => by decide +kernel, fun _ => by decide +kernel,
    fun _ => pendingHeld_of_isSome (by decide +kernel), fun h => (nomatch h)⟩

theorem witness_machineInv_ceiling : MachineInv (testState .active (2 ^ 64 - 16) (aBytes 62)) :=
  ⟨by decide +kernel, by decide +kernel, fun _ => by decide +kernel, fun _ => by decide +kernel,
    fun _ => pendingHeld_of_isSome (by decide +kernel), fun h => (nomatch h)⟩

theorem witness_machineInv_full : MachineInv (inSessionWith (aBytes 63)) :=
  ⟨by decide +kernel, by decide +kernel, fun _ => by decide +kernel, fun _ => by decide +kernel,
    fun _ => pendingHeld_of_isSome (by decide +kernel), fun h => (nomatch h)⟩

theorem witness_machineInv_spent : MachineInv (testState .spent 24 []) :=
  ⟨by decide +kernel, by decide +kernel, fun _ => by decide +kernel, fun h => (nomatch h), fun h => (nomatch h),
    fun _ => by decide +kernel⟩

theorem machineInv_sends {s : State} (h : MachineInv s) (es : List Event) : MachineInv (sends s es) :=
  ⟨h.wf, h.inRange, h.wholeBytes, h.active, h.pending, h.spent⟩

theorem witness_DecodeClassifiesEveryWord :
    ((0x100#10).toNat / 256 = 1 ∧ (0x100#10).toNat % 256 = 0) ∧
      (∀ w ∈ [0x200#10, 0x2ff#10], w.toNat / 256 = 2) ∧ ((0x300#10).toNat / 256 = 3 ∧ (0x300#10).toNat % 256 = 0) ∧
      ∀ w ∈ [0x000#10, 0x0ff#10, 0x101#10, 0x1ff#10, 0x301#10, 0x3ff#10],
        w.toNat / 256 = 0 ∨ (w.toNat / 256 = 1 ∨ w.toNat / 256 = 3) ∧ w.toNat % 256 ≠ 0 := by decide +kernel

theorem witness_StepRunsTheDecodedCommand :
    (sends State.reset [.command 0x261#10]).channel = [.command 0x261#10] ∧ decode 0x261#10 = .command (.upd 0x61#8) ∧
      (Instr.upd 0x61#8).wf = true := by decide

theorem witness_IdleBlockWaits : State.reset.channel = [] := rfl

theorem witness_ReservedWordIsRefused :
    ∀ w ∈ [0x000#10, 0x0ff#10, 0x101#10, 0x1ff#10, 0x301#10, 0x3ff#10],
      (sends (inSessionWith []) [.command w, .reset]).channel = .command w :: [.reset] ∧
        (w.toNat / 256 = 0 ∨ (w.toNat / 256 = 1 ∨ w.toNat / 256 = 3) ∧ w.toNat % 256 ≠ 0) := by decide +kernel

theorem witness_SimultaneousCommandsAreRefused :
    (sends (inSessionWith []) [.simultaneous 0x261#10 0x262#10]).channel = .simultaneous 0x261#10 0x262#10 :: [] := rfl

theorem witness_ResetEventEndsTheSession :
    (sends (inSessionWith [0x61#8]) [.reset, .command 0x262#10]).channel = .reset :: [.command 0x262#10] := rfl

theorem witness_RefusalIsSticky :
    runSteps 1 (sends State.reset [.command 0x300#10, .command 0x100#10]) = .refused .commandWithoutSession :=
  of_refusedAs (by decide +kernel)

theorem witness_InitStartsAFreshSession : ∃ t, exec .init (testState .spent 24 []) = .next t := ⟨_, rfl⟩

theorem witness_UpdAppendsTheByte :
    ∀ s ∈ [inSessionWith [], inSessionWith (aBytes 62), testState .active (2 ^ 64 - 16) (aBytes 62)],
      s.phase = .active ∧ s.bitlen.toNat ≤ 2 ^ 64 - 16 ∧ s.buflen.toNat < 63 := by decide +kernel

theorem witness_UpdFlushesTheFullBlock :
    (inSessionWith (aBytes 63)).phase = .active ∧ (inSessionWith (aBytes 63)).bitlen.toNat ≤ 2 ^ 64 - 16 ∧
      (inSessionWith (aBytes 63)).buflen.toNat = 63 ∧
      (∀ i (h : i < 63), Memory.read (inSessionWith (aBytes 63)).buf i = some (blockAt (aBytes 63 ++ [0x80#8]) 0)[i]) ∧
      (blockAt (aBytes 63 ++ [0x80#8]) 0)[63] = 0x80#8 := by decide +kernel

theorem witness_UpdCompletesInASession :
    MachineInv (testState .active (2 ^ 64 - 16) (aBytes 62)) ∧
      (testState .active (2 ^ 64 - 16) (aBytes 62)).phase = .active ∧
      (testState .active (2 ^ 64 - 16) (aBytes 62)).bitlen.toNat ≤ 2 ^ 64 - 16 ∧
      MachineInv (inSessionWith (aBytes 63)) ∧ (inSessionWith (aBytes 63)).phase = .active ∧
      (inSessionWith (aBytes 63)).bitlen.toNat ≤ 2 ^ 64 - 16 :=
  ⟨witness_machineInv_ceiling, rfl, by decide +kernel, witness_machineInv_full, rfl, by decide +kernel⟩

theorem witness_UpdIsRefusedAtTheCeiling :
    ((testState .active (2 ^ 64 - 8) (aBytes 63)).phase = .active ∧
        (testState .active (2 ^ 64 - 8) (aBytes 63)).bitlen.toNat = 2 ^ 64 - 8) ∧
      (testState .spent (2 ^ 64 - 8) []).phase = .spent ∧ (testState .spent (2 ^ 64 - 8) []).bitlen.toNat = 2 ^ 64 - 8 := by
  decide +kernel

theorem witness_SpentSessionTakesOnlyInit : (testState .spent 24 []).phase = .spent := rfl

theorem witness_NoSessionTakesOnlyInit : State.reset.phase = .none := rfl

theorem witness_PaddingLaysOutTheBuffer :
    ∀ p ∈ [(0, 56), (55, 56), (56, 120), (63, 120)], (inSessionWith (aBytes p.1)).buflen.toNat = p.1 ∧ p.1 ≤ 63 ∧
      p.2 = (if p.1 ≤ 55 then 56 else 120) := by decide +kernel

theorem witness_ZeroFillStopsAt56 :
    ∀ l ∈ [0, 55, 56, 63], l ≤ 63 ∧ (testState .active 0 (aBytes (l + 1))).buflen.toNat = l + 1 := by decide +kernel

theorem witness_FinalCompressesOneBlock :
    ∀ m ∈ [[], aBytes 55], (inSessionWith m).phase = .active ∧ (inSessionWith m).buflen.toNat = m.length ∧ m.length ≤ 55 ∧
      ∀ i < m.length, Memory.read (inSessionWith m).buf i = m[i]? := by decide +kernel

theorem witness_FinalCompressesTwoBlocks :
    ∀ m ∈ [aBytes 56, aBytes 63], (inSessionWith m).phase = .active ∧ (inSessionWith m).buflen.toNat = m.length ∧
      56 ≤ m.length ∧ m.length ≤ 63 ∧ ∀ i < m.length, Memory.read (inSessionWith m).buf i = m[i]? := by decide +kernel

theorem witness_FinalCompletesInASession :
    MachineInv (inSessionWith (aBytes 63)) ∧ (inSessionWith (aBytes 63)).phase = .active :=
  ⟨witness_machineInv_full, rfl⟩

/-- Each of the three clauses: `INIT` after reset, `FINAL` in a session, reset in a session. -/
theorem witness_PhaseChangesOnlyByItsCommands :
    ∀ s ∈ [sends State.reset [.command 0x100#10], sends (inSessionWith []) [.command 0x300#10],
        sends (inSessionWith []) [.reset]], ∃ t, step s = .next t ∧ t.phase ≠ s.phase := by
  have h : ∀ s ∈ [sends State.reset [.command 0x100#10], sends (inSessionWith []) [.command 0x300#10],
      sends (inSessionWith []) [.reset]], nextIs (step s) (fun t => t.phase ≠ s.phase) = true := by decide +kernel
  intro s hs
  obtain ⟨t, ht, hp⟩ := of_nextIs (h s hs)
  exact ⟨t, ht, by simpa using hp⟩

theorem witness_BitlenChangesOnlyByInitAndUpd :
    ∀ s ∈ [sends (inSessionWith [0x61#8]) [.command 0x100#10], sends (inSessionWith []) [.command 0x261#10],
        sends (inSessionWith [0x61#8]) [.reset]], ∃ t, step s = .next t ∧ t.bitlen ≠ s.bitlen := by
  have h : ∀ s ∈ [sends (inSessionWith [0x61#8]) [.command 0x100#10], sends (inSessionWith []) [.command 0x261#10],
      sends (inSessionWith [0x61#8]) [.reset]], nextIs (step s) (fun t => t.bitlen ≠ s.bitlen) = true := by decide +kernel
  intro s hs
  obtain ⟨t, ht, hp⟩ := of_nextIs (h s hs)
  exact ⟨t, ht, by simpa using hp⟩

theorem witness_HashChangesOnlyByInitAndCompression :
    (∃ t, step (sends State.reset [.command 0x100#10]) = .next t ∧ t.hash ≠ State.reset.hash) ∧
      (∃ t, step (sends (inSessionWith (aBytes 63)) [.command 0x261#10]) = .next t ∧ t.hash ≠ iv) ∧
      (∃ t, step (sends (inSessionWith [0x61#8, 0x62#8, 0x63#8]) [.command 0x300#10]) = .next t ∧ t.hash ≠ iv) ∧
      ∃ t, step (sends (inSessionWith []) [.reset]) = .next t ∧ t.hash ≠ iv := by
  refine ⟨⟨_, rfl, by decide⟩, ?_, ?_, ⟨_, rfl, by decide⟩⟩
  · obtain ⟨t, ht, hp⟩ := of_nextIs test_upd_flush
    refine ⟨t, (step_sends (by decide) rfl).trans ht, fun e => ?_⟩
    rw [e] at hp
    exact absurd (of_decide_eq_true hp).1 (by decide)
  · obtain ⟨t, ht, hp⟩ := of_nextIs test_final_abc
    refine ⟨t, (step_sends (by decide) rfl).trans ht, fun e => ?_⟩
    rw [e] at hp
    exact absurd (of_decide_eq_true hp).2.2 (by decide +kernel)

/-- Each command completes from a session: the premises of the frames (`CommandsWriteOnlyTheirBufferBytes`,
`TransientsAndChannelFrame`, `DigestValidFollowsPhase`). -/
theorem witness_CommandFrames :
    (∃ t, exec .init (inSessionWith []) = .next t) ∧
      (∃ t, exec (.upd 0x61#8) (inSessionWith []) = .next t ∧ (inSessionWith []).buflen.toNat ≠ 63) ∧
      ∃ t, exec .final (inSessionWith [0x61#8, 0x62#8, 0x63#8]) = .next t :=
  ⟨⟨_, rfl⟩, (of_nextIs test_upd).imp fun t ht => ⟨ht.1, by decide⟩, (of_nextIs test_final_abc).imp fun t ht => ht.1⟩

theorem witness_ValidDigestIsTheHashState : (testState .spent 24 []).digestValid = true := rfl

/-- Two idle steps of a spent session. -/
theorem witness_DigestStaysUntilInitOrReset :
    (testState .spent 24 []).phase = .spent ∧
      (∀ e ∈ (testState .spent 24 []).channel.take 2, e ≠ .reset ∧ e ≠ .command 0x100#10) ∧
      runSteps 2 (testState .spent 24 []) = .next (testState .spent 24 []) :=
  ⟨rfl, fun _ h => absurd h (by simp [testState, State.reset]), rfl⟩

theorem witness_DigestHexIs64LowercaseDigits :
    (digestBytes iv)[0]? = some 0x6a#8 ∧ (digestBytes iv)[31]? = some 0x19#8 := by decide +kernel

theorem witness_AdditionIsModulo2To32 : [0x80000000#32, 1#32].Perm [1#32, 0x80000000#32] := .swap _ _ _

theorem witness_RoundFunction :
    ∃ T1 T2 : Word, T1 = State.reset.work.h + ep1 State.reset.work.e +
        ch State.reset.work.e State.reset.work.f State.reset.work.g + roundConstants[(63 : Fin 64).val] +
        State.reset.sched[(63 : Fin 64).val] ∧
      T2 = ep0 State.reset.work.a + maj State.reset.work.a State.reset.work.b State.reset.work.c := ⟨_, _, rfl, rfl⟩

/-- A step of each kind from a state that meets the invariant: waiting, `INIT`, `UPD` with and without a flush, `FINAL`,
reset. -/
theorem witness_StepKeepsTheInvariant :
    (∃ t, MachineInv (testState .spent 24 []) ∧ step (testState .spent 24 []) = .next t) ∧
      (∃ t, MachineInv (sends (testState .spent 24 []) [.command 0x100#10]) ∧
        step (sends (testState .spent 24 []) [.command 0x100#10]) = .next t) ∧
      (∃ t, MachineInv (sends (inSessionWith []) [.command 0x261#10]) ∧
        step (sends (inSessionWith []) [.command 0x261#10]) = .next t) ∧
      (∃ t, MachineInv (sends (inSessionWith (aBytes 63)) [.command 0x261#10]) ∧
        step (sends (inSessionWith (aBytes 63)) [.command 0x261#10]) = .next t) ∧
      (∃ t, MachineInv (sends (inSessionWith [0x61#8, 0x62#8, 0x63#8]) [.command 0x300#10]) ∧
        step (sends (inSessionWith [0x61#8, 0x62#8, 0x63#8]) [.command 0x300#10]) = .next t) ∧
      ∃ t, MachineInv (sends (inSessionWith []) [.reset]) ∧ step (sends (inSessionWith []) [.reset]) = .next t :=
  ⟨⟨_, witness_machineInv_spent, rfl⟩, ⟨_, machineInv_sends witness_machineInv_spent _, rfl⟩,
    (of_nextIs test_upd).imp fun _ h =>
      ⟨machineInv_sends witness_machineInv_empty _, (step_sends (by decide) rfl).trans h.1⟩,
    (of_nextIs test_upd_flush).imp fun _ h =>
      ⟨machineInv_sends witness_machineInv_full _, (step_sends (by decide) rfl).trans h.1⟩,
    (of_nextIs test_final_abc).imp fun _ h =>
      ⟨machineInv_sends witness_machineInv_active _, (step_sends (by decide) rfl).trans h.1⟩,
    ⟨_, machineInv_sends witness_machineInv_empty _, rfl⟩⟩

/-- A state that meets the invariant for two of the five reasons; `test_refusals` and `test_ceiling` reach the others. -/
theorem witness_OnlyTheFiveRefusals :
    MachineInv (sends (testState .spent 24 []) [.command 0x300#10]) ∧
      step (sends (testState .spent 24 []) [.command 0x300#10]) = .refused .commandInSpentPhase ∧
      MachineInv (sends (inSessionWith [0x61#8, 0x62#8, 0x63#8]) [.simultaneous 0x261#10 0x262#10]) ∧
      step (sends (inSessionWith [0x61#8, 0x62#8, 0x63#8]) [.simultaneous 0x261#10 0x262#10]) = .refused .concurrentAccess :=
  ⟨machineInv_sends witness_machineInv_spent _, of_refusedAs (by decide +kernel),
    machineInv_sends witness_machineInv_active _, rfl⟩

/-- Sessions of no bytes and of 63, the byte after which fills the block. -/
theorem witness_SessionHoldsTheBytesTaken :
    ∀ m ∈ [[], aBytes 63], InSessionWith m (inSessionWith m) ∧ 8 * (m.length + 1) < 2 ^ 64 := by
  have h : ∀ m ∈ [[], aBytes 63], 8 * (m.length + 1) < 2 ^ 64 ∧ (inSessionWith m).bitlen.toNat = 8 * m.length ∧
      (inSessionWith m).buflen.toNat = m.length % 64 ∧
      (∀ i < m.length % 64, Memory.read (inSessionWith m).buf i = m[m.length - m.length % 64 + i]?) ∧
      blocksOf m = [] := by decide +kernel
  intro m hm
  obtain ⟨h1, h2, h3, h4, h5⟩ := h m hm
  exact ⟨⟨rfl, by omega, h2, h3, h4, by rw [h5]; rfl⟩, h1⟩

/-- A chunk of 65 bytes after 63: it crosses two block boundaries. -/
theorem witness_UpdateTakesAChunk :
    InSessionWith (aBytes 63) (inSessionWith (aBytes 63)) ∧ 8 * ((aBytes 63).length + (aBytes 65).length) < 2 ^ 64 :=
  ⟨(witness_SessionHoldsTheBytesTaken _ (by simp)).1, by decide +kernel⟩

/-- The empty message, and one of 56 bytes: two blocks of padding (`SessionComputesSha256`, `HashingTwiceAgrees`). -/
theorem witness_SessionComputesSha256 : 8 * ([] : List Byte).length < 2 ^ 64 ∧ 8 * (aBytes 56).length < 2 ^ 64 := by
  decide +kernel

/-- V71, an empty chunk among them. -/
theorem witness_ChunkingDoesNotMatter :
    [[], [0x61#8, 0x62#8], [], [0x63#8]].flatten = [[0x61#8, 0x62#8, 0x63#8]].flatten := rfl

/-- R186: the refusal of instance 0 (V61) does not reach instance 1, stepped after it. -/
theorem test_instances :
    refusedAs (runInstances [0, 1, 0] (Bank.start #v[sends State.reset [.command 0x300#10],
      sends State.reset [.command 0x100#10]]))[0] .commandWithoutSession = true ∧
      nextIs (runInstances [0, 1, 0] (Bank.start #v[sends State.reset [.command 0x300#10],
        sends State.reset [.command 0x100#10]]))[1] (fun t => t.phase = .active) = true := by decide +kernel

end Sys2Proof.Machine
end

section
/-! The decoder by its fields: `op = w / 256` and `data = w mod 256` (30_encoding.md R71). One lemma per field, the
four cases of the decode rule R78, and the reserved words of R76 with their number. -/

namespace Sys2Proof

@[simp] theorem toNat_opField (w : CommandWord) : (opField w).toNat = w.toNat / 256 := by
  have := w.isLt
  simp only [opField, BitVec.extractLsb'_toNat, Nat.shiftRight_eq_div_pow]
  omega

theorem dataField_eq_ofNat (w : CommandWord) : dataField w = BitVec.ofNat 8 (w.toNat % 256) := by
  apply BitVec.eq_of_toNat_eq
  simp [dataField]

theorem opField_eq_iff (w : CommandWord) (v : BitVec 2) : opField w = v ↔ w.toNat / 256 = v.toNat := by
  rw [← BitVec.toNat_inj, toNat_opField]

theorem dataField_eq_zero_iff (w : CommandWord) : dataField w = 0x00#8 ↔ w.toNat % 256 = 0 := by
  rw [← BitVec.toNat_inj, dataField_eq_ofNat]
  simp

/-- R78 in the fields' numbers: the one place where `decode` is unfolded. -/
theorem decode_eq_by_fields (w : CommandWord) :
    decode w =
      if w.toNat / 256 = 1 ∧ w.toNat % 256 = 0 then .command .init
      else if w.toNat / 256 = 2 then .command (.upd (BitVec.ofNat 8 (w.toNat % 256)))
      else if w.toNat / 256 = 3 ∧ w.toNat % 256 = 0 then .command .final
      else .reserved := by
  simp only [decode, opField_eq_iff, dataField_eq_zero_iff]
  simp only [dataField_eq_ofNat, BitVec.reduceToNat]

theorem decode_of_op_eq_one {w : CommandWord} (h : w.toNat / 256 = 1 ∧ w.toNat % 256 = 0) :
    decode w = .command .init := by
  rw [decode_eq_by_fields, if_pos h]

theorem decode_of_op_eq_two {w : CommandWord} (h : w.toNat / 256 = 2) :
    decode w = .command (.upd (BitVec.ofNat 8 (w.toNat % 256))) := by
  rw [decode_eq_by_fields, if_neg (by omega), if_pos h]

theorem decode_of_op_eq_three {w : CommandWord} (h : w.toNat / 256 = 3 ∧ w.toNat % 256 = 0) :
    decode w = .command .final := by
  rw [decode_eq_by_fields, if_neg (by omega), if_neg (by omega), if_pos h]

/-- R76: the three kinds of reserved word. There are only the four values of `op`, so the words that fall through the
decode rule's branches are these. -/
theorem decode_eq_reserved_iff (w : CommandWord) :
    decode w = .reserved ↔
      w.toNat / 256 = 0 ∨ w.toNat / 256 = 1 ∧ w.toNat % 256 ≠ 0 ∨ w.toNat / 256 = 3 ∧ w.toNat % 256 ≠ 0 := by
  have hw : w.toNat < 1024 := w.isLt
  rw [decode_eq_by_fields]
  split_ifs <;> simp only [false_iff, true_iff] <;> omega

/-- Settles O1: each clause of R78 is one branch of the decoder. -/
theorem decodeClassifiesEveryWord : Obligations.DecodeClassifiesEveryWord := by
  intro w
  exact ⟨decode_of_op_eq_one, decode_of_op_eq_two, decode_of_op_eq_three,
    fun h => (decode_eq_reserved_iff w).2 (by omega)⟩

/-- The reserved words among the 256 with the field `op`. -/
def reservedWithOp (op : Nat) : Nat :=
  (List.range 256).countP fun data => decode (BitVec.ofNat 10 (256 * op + data)) = .reserved

/-- R76 for a word given by its fields. -/
theorem decode_ofFields_eq_reserved_iff {op data : Nat} (hop : op < 4) (hdata : data < 256) :
    decode (BitVec.ofNat 10 (256 * op + data)) = .reserved ↔ op = 0 ∨ (op = 1 ∨ op = 3) ∧ data ≠ 0 := by
  rw [decode_eq_reserved_iff, BitVec.toNat_ofNat, Nat.mod_eq_of_lt (by omega)]
  omega

/-- A row's reserved words are counted by the data alone. -/
theorem reservedWithOp_eq_countP {op : Nat} (hop : op < 4) :
    reservedWithOp op = (List.range 256).countP fun data => op = 0 ∨ (op = 1 ∨ op = 3) ∧ data ≠ 0 :=
  List.countP_congr fun data h => by
    simp only [decide_eq_true_eq, decode_ofFields_eq_reserved_iff hop (List.mem_range.1 h)]

/-- With `op` = 0b00 every word is reserved. -/
theorem reservedWithOp_zero : reservedWithOp 0 = 256 := by
  rw [reservedWithOp_eq_countP (by decide), List.countP_eq_length.2 (by simp), List.length_range]

/-- `op` = 0b10 is `UPD`, with no reserved word. -/
theorem reservedWithOp_two : reservedWithOp 2 = 0 := by
  rw [reservedWithOp_eq_countP (by decide), List.countP_eq_zero.2 (by simp)]

/-- With `op` = 0b01 or 0b11 every word but the one whose data is 0 is reserved. -/
theorem reservedWithOp_of_one_or_three {op : Nat} (hop : op = 1 ∨ op = 3) : reservedWithOp op = 255 := by
  have hne : op ≠ 0 := by omega
  rw [reservedWithOp_eq_countP (by omega), List.range_succ_eq_map, List.countP_cons_of_neg (by simp [hne]),
    List.countP_eq_length.2 (by simp [hop]), List.length_map, List.length_range]

/-- The 1024 words are the four rows of 256, one for each value of `op`. -/
theorem countP_reserved_eq_sum_rows :
    ((List.range 1024).countP fun n => decode (BitVec.ofNat 10 n) = .reserved) =
      reservedWithOp 0 + reservedWithOp 1 + reservedWithOp 2 + reservedWithOp 3 := by
  have hrows : List.range 1024 = (List.range 256).map (256 * 0 + ·) ++ (List.range 256).map (256 * 1 + ·) ++
      (List.range 256).map (256 * 2 + ·) ++ (List.range 256).map (256 * 3 + ·) := by
    rw [show 1024 = 256 + 256 + 256 + 256 from rfl, List.range_add, List.range_add, List.range_add]
    simp
  rw [hrows, List.countP_append, List.countP_append, List.countP_append]
  simp only [List.countP_map, Function.comp_def, reservedWithOp]

/-- Settles O2: 256 + 255 + 0 + 255 reserved words, by the value of `op`. -/
theorem reservedWordsAre766 : Obligations.ReservedWordsAre766 := by
  refine ⟨decode_eq_reserved_iff, ?_, (decode_eq_reserved_iff _).2 (.inl rfl)⟩
  rw [countP_reserved_eq_sum_rows, reservedWithOp_zero, reservedWithOp_of_one_or_three (.inl rfl), reservedWithOp_two,
    reservedWithOp_of_one_or_three (.inr rfl)]

end Sys2Proof
end

section
/-! The bit operations of 40_bitops.md by their bits: `ROTR` as the library's rotation (R92) and `SHR` (R93). Then words
and bytes, most significant byte first (R101, R102, R105): a byte of a word is a quotient by a power of 2, modulo 256. -/

namespace Sys2Proof.Machine

/-- The model's formula, total in `n`, is the library's rotation. -/
theorem rotr_eq_rotateRight (x : Word) (n : Nat) : rotr x n = x.rotateRight n := rfl

/-- In R92's domain the amount stands in the formula as it is. -/
theorem rotr_eq_shift_or_shift (x : Word) {n : Nat} (hn : n < 32) : rotr x n = (x >>> n) ||| (x <<< (32 - n)) := by
  rw [rotr, Nat.mod_eq_of_lt hn]

/-- A rotation moves bit `i + n`, counted round the word, to bit `i`. -/
theorem getLsbD_rotr (x : Word) (n : Nat) {i : Nat} (hi : i < 32) :
    (rotr x n).getLsbD i = x.getLsbD ((i + n) % 32) := by
  rw [rotr_eq_rotateRight, BitVec.getLsbD_rotateRight]
  by_cases hlow : i < 32 - n % 32
  · have hplace : n % 32 + i = (i + n) % 32 := by omega
    simp [hlow, hplace]
  · have hwrap : i - (32 - n % 32) = (i + n) % 32 := by omega
    simp [hlow, hi, hwrap]

/-- The amounts of two rotations add up. -/
theorem rotr_rotr (x : Word) (m n : Nat) : rotr (rotr x m) n = rotr x (m + n) := by
  apply BitVec.eq_of_getLsbD_eq
  intro i hi
  have hplace : ((i + n) % 32 + m) % 32 = (i + (m + n)) % 32 := by omega
  rw [getLsbD_rotr _ _ hi, getLsbD_rotr _ _ (Nat.mod_lt _ (by decide)), getLsbD_rotr _ _ hi, hplace]

/-- A rotation by the whole width. -/
theorem rotr_width (x : Word) : rotr x 32 = x := by
  apply BitVec.eq_of_getLsbD_eq
  intro i hi
  rw [getLsbD_rotr _ _ hi, Nat.add_mod_right, Nat.mod_eq_of_lt hi]

/-- Settles O38: the bits, R92's formula, and the way back, whose two amounts add up to the width. -/
theorem rotateMovesBitsRight : Obligations.RotateMovesBitsRight := by
  intro x n _ hn
  refine ⟨fun i hi => getLsbD_rotr x n hi, rotr_eq_shift_or_shift x (by omega), ?_⟩
  rw [rotr_rotr, Nat.add_sub_cancel' (by omega), rotr_width]

/-- `SHR` takes bit `i` from place `i + n`. A place above 31 holds no bit and reads as 0. -/
theorem getLsbD_shr (x : Word) (n i : Nat) : (shr x n).getLsbD i = x.getLsbD (i + n) := by
  rw [shr, BitVec.getLsbD_ushiftRight, Nat.add_comm]

/-- Settles O39: the places above 31 are those where zeros enter. -/
theorem shiftRightBringsInZeros : Obligations.ShiftRightBringsInZeros := by
  intro x n i _ _
  rw [getLsbD_shr]
  split_ifs with hin
  · rfl
  · exact BitVec.getLsbD_of_ge x (i + n) (by omega)

/-- Putting a byte below a bit vector multiplies its value by 256 and adds the byte. -/
theorem toNat_append_byte {n : Nat} (v : BitVec n) (b : Byte) : (v ++ b).toNat = v.toNat * 2 ^ 8 + b.toNat := by
  rw [BitVec.toNat_append, ← Nat.shiftLeft_add_eq_or_of_lt b.isLt, Nat.shiftLeft_eq]

/-- R101 as a number. -/
theorem toNat_be32 (b0 b1 b2 b3 : Byte) :
    (be32 b0 b1 b2 b3).toNat = b0.toNat * 2 ^ 24 + b1.toNat * 2 ^ 16 + b2.toNat * 2 ^ 8 + b3.toNat := by
  rw [be32, toNat_append_byte, toNat_append_byte, toNat_append_byte]
  omega

/-- R105 undoes R101: each byte is cut out at the place where it was put in. -/
theorem be32bytes_be32 (b0 b1 b2 b3 : Byte) : be32bytes (be32 b0 b1 b2 b3) = [b0, b1, b2, b3] := by
  have h0 : (be32 b0 b1 b2 b3).extractLsb' 24 8 = b0 := by
    rw [be32, BitVec.extractLsb'_append_eq_of_le (by decide), BitVec.extractLsb'_append_eq_of_le (by decide),
      BitVec.extractLsb'_append_eq_left]
  have h1 : (be32 b0 b1 b2 b3).extractLsb' 16 8 = b1 := by
    rw [be32, BitVec.extractLsb'_append_eq_of_le (by decide), BitVec.extractLsb'_append_eq_of_le (by decide),
      BitVec.extractLsb'_append_eq_right]
  have h2 : (be32 b0 b1 b2 b3).extractLsb' 8 8 = b2 := by
    rw [be32, BitVec.extractLsb'_append_eq_of_le (by decide), BitVec.extractLsb'_append_eq_right]
  have h3 : (be32 b0 b1 b2 b3).extractLsb' 0 8 = b3 := BitVec.extractLsb'_append_eq_right
  rw [be32bytes, h0, h1, h2, h3]

/-- The byte with `j` bytes below it is the quotient by `256 ^ j`, modulo 256. -/
theorem extractByte_eq_ofNat_div {n : Nat} (v : BitVec n) (j : Nat) :
    v.extractLsb' (8 * j) 8 = BitVec.ofNat 8 (v.toNat / 256 ^ j) := by
  have hpow : 2 ^ (8 * j) = 256 ^ j := Nat.pow_mul 2 8 j
  rw [← hpow, ← Nat.shiftRight_eq_div_pow]
  rfl

/-- Byte `k` of the 8 has `7 - k` bytes below it. -/
theorem be64bytes_eq_map (v : BitVec 64) :
    be64bytes v = (List.range 8).map fun k => v.extractLsb' (8 * (7 - k)) 8 := rfl

/-- Settles O42: the value of R101, its inverse R105, and R102 byte by byte. -/
theorem bytesAreBigEndian : Obligations.BytesAreBigEndian := by
  refine ⟨toNat_be32, be32bytes_be32, fun v => ?_⟩
  simp only [be64bytes_eq_map, extractByte_eq_ofNat_div]

end Sys2Proof.Machine
end

section
/-! The steps of `TRANSFORM` against 41_compress.md: the schedule that `SCHED_LOAD` and `SCHED_EXPAND` leave in the state
(R111, R112), one round of the working variables (R114), and `MIXIN` (R115). Sums are written with `+`, from the left. -/

namespace Sys2Proof.Machine

/-- What the two schedule steps leave in `W`. -/
theorem schedExpand_schedLoad_sched (blk : Block) (s : State) :
    (schedExpand (schedLoad blk s)).sched = expandSchedule (loadSchedule blk s.sched) := rfl

/-- Settles O44: expansion keeps the 16 loaded words and gives each later word the sum of its four. -/
theorem scheduleSatisfiesItsRecurrence : Obligations.ScheduleSatisfiesItsRecurrence := by
  intro blk s
  simp only [schedExpand_schedLoad_sched]
  obtain ⟨hkeep, hsum⟩ := expandSchedule_getElem (loadSchedule blk s.sched)
  refine ⟨fun t ht => ?_, hsum⟩
  rw [hkeep t ht, loadSchedule_getElem blk s.sched t ht]

/-- R114 with its two sums named: `T1` of five words and `T2` of two, all of them from before the round. -/
theorem roundWork_eq (w : Vector Word 64) (v : Work) (t : Fin 64) {T1 T2 : Word}
    (hT1 : T1 = v.h + ep1 v.e + ch v.e v.f v.g + roundConstants[t.val] + w[t.val])
    (hT2 : T2 = ep0 v.a + maj v.a v.b v.c) :
    roundWork w v t =
      { a := T1 + T2, b := v.a, c := v.b, d := v.c, e := v.d + T1, f := v.e, g := v.f, h := v.g } := by
  have hsum : sum32 [v.h, ep1 v.e, ch v.e v.f v.g, roundConstants[t.val], w[t.val]] = T1 := by
    simp only [hT1, sum32_cons, sum32_nil, add_zero, add_assoc]
  simp only [roundWork, hsum, add32_eq, hT2]

/-- Settles O45: `ROUND(t)` writes the working variables alone, and those as R114 says. -/
theorem roundFunction : Obligations.RoundFunction := by
  intro s t T1 T2 hT1 hT2
  rw [roundStep, roundWork_eq s.sched s.work t hT1 hT2]

/-- R90: `ADD32` is the sum of the numbers modulo `2^32`. -/
theorem toNat_add32 (x y : Word) : (add32 x y).toNat = (x.toNat + y.toNat) % 2 ^ 32 := by
  rw [add32, BitVec.toNat_ofNat]

/-- Settles O46: `MIXIN` writes `H` alone, and each of its words by one `ADD32`. -/
theorem mixInAccumulates : Obligations.MixInAccumulates := fun s =>
  ⟨addWork s.hash s.work, rfl, toNat_add32 _ _, toNat_add32 _ _, toNat_add32 _ _, toNat_add32 _ _, toNat_add32 _ _,
    toNat_add32 _ _, toNat_add32 _ _, toNat_add32 _ _⟩

end Sys2Proof.Machine
end

section
/-! Commands on the channel: the block takes them one by one, so running a channel is executing its commands in order
(30_encoding.md R70). `UPDATE` is expanded byte by byte, so the chunk boundaries are gone before the channel is filled
(R82, 42_ingest.md R133). -/

namespace Sys2Proof.Machine

/-- Every command's word is read back as that command, its operand with it. -/
theorem decode_encode (i : Instr) : decode (encode i) = .command i := by
  cases i with
  | init => obtain ⟨-, -, h⟩ := Laws.Encoding.init; exact h
  | upd b => obtain ⟨-, -, h⟩ := Laws.Encoding.upd b; exact h
  | final => obtain ⟨-, -, h⟩ := Laws.Encoding.final; exact h

/-- A command at the head of the channel is the one the next step executes. -/
theorem step_encode (i : Instr) (es : List Event) (s : State) :
    step (s.withChannel (.command (encode i) :: es)) = exec i (s.withChannel es) :=
  step_command rfl (decode_encode i)

/-- R70: running a channel of commands is executing them in order, before whatever waits behind them. -/
theorem runSteps_channelOf (is : List Instr) (es : List Event) (s : State) :
    runSteps is.length (s.withChannel (channelOf is ++ es)) = execAll is (s.withChannel es) := by
  induction is generalizing s with
  | nil => rfl
  | cons i is ih =>
    have hstep : step (s.withChannel (channelOf (i :: is) ++ es)) = exec i (s.withChannel (channelOf is ++ es)) :=
      step_encode i _ s
    rw [List.length_cons, runSteps_succ, hstep, execAll, exec_withChannel, exec_withChannel]
    cases exec i s with
    | next t => exact ih t
    | fault => rfl
    | refused => rfl

/-- R82: a sequence of chunks is the one chunk they concatenate to. -/
theorem expandChunks_eq_expandUpdate_flatten (cs : List (List Byte)) :
    expandChunks cs = expandUpdate cs.flatten := by
  rw [expandChunks, List.flatMap_def, expandUpdate, List.map_flatten]
  rfl

@[simp] theorem length_expandHash (m : List Byte) : (expandHash m).length = m.length + 2 := by
  simp [expandHash, expandUpdate]

/-- Settles O54: the channel depends on the concatenation of the chunks alone. -/
theorem chunkingDoesNotMatter : Obligations.ChunkingDoesNotMatter := by
  intro s cs ds k hflatten
  rw [expandChunks_eq_expandUpdate_flatten, expandChunks_eq_expandUpdate_flatten, hflatten]

end Sys2Proof.Machine
end

section
/-! The blocks of a message cut after its last complete block: what lies behind the cut is what a session has pending
(10_state.md R37), and the compression of the whole goes on from there (41_compress.md R117). -/

namespace Sys2Proof.Machine

/-- The bytes of a message behind its last complete block. -/
def partialBlock (m : List Byte) : List Byte := m.drop (m.length - m.length % 64)

@[simp] theorem length_partialBlock (m : List Byte) : (partialBlock m).length = m.length % 64 := by
  have hle := Nat.mod_le m.length 64
  rw [partialBlock, List.length_drop]
  omega

theorem partialBlock_eq_self {p : List Byte} (hp : p.length < 64) : partialBlock p = p := by
  rw [partialBlock, Nat.mod_eq_of_lt hp, Nat.sub_self, List.drop_zero]

theorem partialBlock_eq_nil {p : List Byte} (hp : p.length % 64 = 0) : partialBlock p = [] :=
  List.length_eq_zero_iff.1 (by rw [length_partialBlock, hp])

/-- What is pending, with bytes put behind it, is a tail of the whole message. -/
theorem partialBlock_append_eq_drop (m c : List Byte) :
    partialBlock m ++ c = (m ++ c).drop (m.length - m.length % 64) := by
  rw [partialBlock, List.drop_append_of_le_length (Nat.sub_le _ _)]

/-- The cut is the same, whether the complete blocks before stand there or not. -/
theorem partialBlock_partialBlock_append (m c : List Byte) :
    partialBlock (partialBlock m ++ c) = partialBlock (m ++ c) := by
  have hle := Nat.mod_le m.length 64
  rw [partialBlock, partialBlock_append_eq_drop, List.drop_drop, partialBlock]
  congr 1
  simp only [List.length_drop, List.length_append]
  omega

theorem blockAt_drop (l : List Byte) (o k : Nat) : blockAt (l.drop o) k = blockAt l (o + k) := by
  simp only [blockAt, List.getD_eq_getElem?_getD, List.getElem?_drop, Nat.add_assoc]

/-- The blocks of a longer message: those complete before, then those of the pending bytes with the new ones. -/
theorem blocksOf_append_partialBlock (m c : List Byte) :
    blocksOf (m ++ c) = blocksOf m ++ blocksOf (partialBlock m ++ c) := by
  have hlen : (partialBlock m ++ c).length / 64 = (m.length + c.length) / 64 - m.length / 64 := by
    rw [List.length_append, length_partialBlock]
    omega
  have hcut : m.length - m.length % 64 = 64 * (m.length / 64) := by omega
  rw [blocksOf_append, blocksOf.eq_def (partialBlock m ++ c), hlen, partialBlock_append_eq_drop, hcut]
  simp only [blockAt_drop, Nat.mul_add]

/-- R117: the compression of a longer message goes on from the hash state of its complete blocks. -/
theorem compressBlocks_append_partialBlock (H : HashState) (m c : List Byte) :
    compressBlocks H (blocksOf (m ++ c)) =
      compressBlocks (compressBlocks H (blocksOf m)) (blocksOf (partialBlock m ++ c)) := by
  rw [blocksOf_append_partialBlock, compressBlocks, List.foldl_append]
  rfl

theorem blocksOf_eq_nil {p : List Byte} (hp : p.length < 64) : blocksOf p = [] := by
  rw [blocksOf, Nat.div_eq_of_lt hp]
  rfl

theorem blocksOf_eq_one {p : List Byte} (hp : p.length = 64) : blocksOf p = [blockAt p 0] := by
  rw [blocksOf, hp]
  rfl

theorem blocksOf_eq_two {p : List Byte} (hp : p.length = 128) : blocksOf p = [blockAt p 0, blockAt p 64] := by
  rw [blocksOf, hp]
  rfl

/-- What `PAD` puts behind the message (43_finalize.md R160). -/
def padSuffix (m : List Byte) : List Byte :=
  [markerByte] ++ List.replicate (padZeros m.length) fillByte ++ be64bytes (BitVec.ofNat 64 (8 * m.length))

theorem pad_eq_append_padSuffix (m : List Byte) : pad m = m ++ padSuffix m := by
  simp [pad, padSuffix, markerByte, fillByte]

/-- R160: the fewest zero bytes that bring the length, marker included, to 56 modulo 64. -/
theorem padZeros_spec (n : Nat) : padZeros n < 64 ∧ (n % 64 + 1 + padZeros n) % 64 = 56 := by
  unfold padZeros
  omega

@[simp] theorem length_padSuffix (m : List Byte) : (padSuffix m).length = padZeros m.length + 9 := by
  simp [padSuffix, length_be64bytes]

/-- R59: the pending bytes and the padding fill one block or two. -/
theorem length_partialBlock_append_padSuffix (m : List Byte) :
    (partialBlock m ++ padSuffix m).length = 64 ∨ (partialBlock m ++ padSuffix m).length = 128 := by
  obtain ⟨hlt, hmod⟩ := padZeros_spec m.length
  rw [List.length_append, length_partialBlock, length_padSuffix]
  omega

end Sys2Proof.Machine
end

section
/-! The pending buffer read as a list of bytes: what an append and the flushes do to it (20_memory.md R51, R56). -/

namespace Sys2Proof.Machine

/-- The valid bytes of the buffer are those of `p` (10_state.md R29). -/
structure PendingBytes (p : List Byte) (s : State) : Prop where
  length : s.buflen.toNat = p.length
  read : ∀ i < p.length, Memory.read s.buf i = p[i]?

/-- The state with `v` appended at `BUFLEN`. -/
def State.appended (v : List Byte) (s : State) : State :=
  { s with buf := Memory.writeList s.buf s.buflen.toNat v, buflen := s.buflen + BitVec.ofNat 8 v.length }

section
variable {p v : List Byte} {s : State}

theorem pendingBytes_nil (h : s.buflen = 0) : PendingBytes [] s :=
  ⟨by simp [h], fun _ hi => absurd hi (Nat.not_lt_zero _)⟩

/-- Bytes for which there is room are appended. -/
theorem PendingBytes.appendBytes_eq (h : PendingBytes p s) (hroom : p.length + v.length ≤ 128) :
    appendBytes v s = .next (s.appended v) :=
  appendBytes_eq_next.2 ⟨by rw [h.length]; exact hroom, rfl⟩

/-- Bytes appended stand behind those pending before. -/
theorem PendingBytes.appended (h : PendingBytes p s) (hroom : p.length + v.length ≤ 128) :
    PendingBytes (p ++ v) (s.appended v) where
  length := by
    simp only [State.appended, BitVec.toNat_add, BitVec.toNat_ofNat, h.length, List.length_append]
    omega
  read i hi := by
    rw [List.length_append] at hi
    rw [State.appended, Memory.read_writeList, h.length]
    split_ifs with hnew
    · rw [List.getElem?_append_right hnew.1]
    · rw [h.read i (by omega), List.getElem?_append_left (by omega)]

/-- A block of the buffer that is compressed is that block of the pending bytes. -/
theorem PendingBytes.transformAt_eq {base : Nat} (h : PendingBytes p s) (hin : base + 64 ≤ p.length)
    (hend : base + 64 ≤ 128) : transformAt base s = .next (transform (blockAt p base) s) := by
  refine transformAt_eq_next.2 ⟨blockAt p base, ⟨hend, by rw [h.length]; exact hin, fun i hi => ?_⟩, rfl⟩
  have hlt : base + i < p.length := by omega
  rw [h.read _ hlt]
  simp [blockAt, hlt]

/-- R116: on the hash state `TRANSFORM` is the pure function `COMPRESS`; what `W` and `a..h` held does not matter. -/
@[simp] theorem transform_hash (blk : Block) (s : State) : (transform blk s).hash = compress s.hash blk := by
  rw [transform_eq, compress, schedule, expandSchedule_loadSchedule blk s.sched]

/-- R131: the flush of `UPD` compresses the pending bytes where they are a block, and leaves the rest pending. -/
theorem PendingBytes.flushFull_next (h : PendingBytes p s) (hp : p.length ≤ 64) :
    ∃ t, flushFull s = .next t ∧ PendingBytes (partialBlock p) t ∧ t.hash = compressBlocks s.hash (blocksOf p) ∧
      t.phase = s.phase ∧ t.bitlen = s.bitlen := by
  rcases hp.lt_or_eq with hlt | hfull
  · refine ⟨s, flushFull_eq_next.2 (.inl ⟨by rw [h.length]; omega, rfl⟩), ?_, ?_, rfl, rfl⟩
    · rwa [partialBlock_eq_self hlt]
    · rw [blocksOf_eq_nil hlt]
      rfl
  · refine ⟨releaseTransients { transform (blockAt p 0) s with buflen := 0 }, ?_, ?_, ?_, ?_, ?_⟩
    · rw [flushFull, if_pos (by rw [h.length, hfull]; rfl), h.transformAt_eq (by omega) (by omega)]
      rfl
    · rw [partialBlock_eq_nil (by rw [hfull])]
      exact pendingBytes_nil rfl
    · simp [blocksOf_eq_one hfull, compressBlocks]
    · simp
    · simp

/-- R154: the flush of `FINAL` compresses the one block or the two that are pending, in order. -/
theorem PendingBytes.flushPadded_next (h : PendingBytes p s) (hp : p.length = 64 ∨ p.length = 128) :
    ∃ t, flushPadded s = .next t ∧ t.hash = compressBlocks s.hash (blocksOf p) := by
  have hfirst := h.transformAt_eq (base := 0) (by omega) (by omega)
  rw [flushPadded, hfirst, andThen_next, transform_buflen, h.length]
  rcases hp with hone | htwo
  · rw [if_neg (by rw [hone]; decide)]
    exact ⟨_, rfl, by simp [blocksOf_eq_one hone, compressBlocks]⟩
  · have hafter : PendingBytes p (transform (blockAt p 0) s) :=
      ⟨by rw [transform_buflen, h.length], by rw [transform_buf]; exact h.read⟩
    rw [if_pos (by rw [htwo]; rfl), blockBytes, hafter.transformAt_eq (by omega) (by omega)]
    exact ⟨_, rfl, by simp [blocksOf_eq_two htwo, compressBlocks]⟩

/-- The zero fill is one append of as many zero bytes as are missing to the next length that is 56 modulo 64. -/
theorem PendingBytes.zeroFill_eq {z : Nat} (h : PendingBytes p s) (hz : z < 64) (hstop : (p.length + z) % 64 = 56)
    (hroom : p.length + z ≤ 128) : zeroFill 63 s = .next (s.appended (List.replicate z fillByte)) := by
  rw [zeroFill_next (z := z) (by omega) (by rw [h.length]; exact hstop) (by rw [h.length]; omega)
    (by rw [h.length]; exact hroom), State.appended, List.length_replicate]

end

end Sys2Proof.Machine
end

section
/-! A session's commands by the message they have taken (42_ingest.md R130 to R132, 43_finalize.md R150, R161): the
state before `INIT` leaves no trace in the hash state. -/

namespace Sys2Proof.Machine

section
variable {m : List Byte} {s : State}

/-- What a session has pending is its message behind the last complete block. -/
theorem InSessionWith.pendingBytes (h : InSessionWith m s) : PendingBytes (partialBlock m) s where
  length := by rw [h.buflen, length_partialBlock]
  read i hi := by
    rw [length_partialBlock] at hi
    rw [h.pending i hi, partialBlock, List.getElem?_drop]

/-- R37 with the pending bytes as a list. -/
theorem inSessionWith_of_pendingBytes (hphase : s.phase = .active) (hfits : 8 * m.length < 2 ^ 64)
    (hbitlen : s.bitlen.toNat = 8 * m.length) (hpending : PendingBytes (partialBlock m) s)
    (hhash : s.hash = compressBlocks iv (blocksOf m)) : InSessionWith m s where
  phase := hphase
  fits := hfits
  bitlen := hbitlen
  buflen := by rw [hpending.length, length_partialBlock]
  pending i hi := by
    rw [hpending.read i (by rwa [length_partialBlock]), partialBlock, List.getElem?_drop]
  hash := hhash

/-- R130: whatever the state held, `INIT` starts the session of no bytes. -/
theorem exec_init_inSessionWith (s : State) : ∃ t, exec .init s = .next t ∧ InSessionWith [] t :=
  ⟨_, rfl, inSessionWith_of_pendingBytes rfl (by decide) rfl (pendingBytes_nil rfl) rfl⟩

/-- R131: `UPD b` takes the session of `m` to the session of `m ++ [b]`. -/
theorem InSessionWith.exec_upd_next {b : Byte} (h : InSessionWith m s) (hfits : 8 * (m.length + 1) < 2 ^ 64) :
    ∃ t, exec (.upd b) s = .next t ∧ InSessionWith (m ++ [b]) t := by
  have hroom : (partialBlock m).length + [b].length ≤ 64 := by
    rw [length_partialBlock, List.length_singleton]
    omega
  have happended := h.pendingBytes.appended (v := [b]) (by omega)
  have hcounted : PendingBytes (partialBlock m ++ [b]) { s.appended [b] with bitlen := s.bitlen + 8 } :=
    ⟨happended.length, happended.read⟩
  obtain ⟨t, ht, hpending, hhash, hphase, hbitlen⟩ := hcounted.flushFull_next (by rwa [List.length_append])
  have hexec : exec (.upd b) s = .next t := by
    rw [exec, execUpd, inSession_active h.phase, if_pos (by rw [h.bitlen, lastBitlen]; omega),
      h.pendingBytes.appendBytes_eq (by omega)]
    exact ht
  have hcount : t.bitlen.toNat = 8 * (m ++ [b]).length := by
    rw [hbitlen, BitVec.toNat_add, h.bitlen, List.length_append, List.length_singleton]
    exact Nat.mod_eq_of_lt hfits
  have hcompressed : t.hash = compressBlocks iv (blocksOf (m ++ [b])) := by
    rw [hhash, compressBlocks_append_partialBlock iv m, ← h.hash]
    rfl
  rw [partialBlock_partialBlock_append] at hpending
  exact ⟨t, hexec, inSessionWith_of_pendingBytes (hphase.trans h.phase) (by simpa using hfits) hcount hpending
    hcompressed⟩

/-- R132: `UPDATE c` takes the session of `m` to the session of `m ++ c`. -/
theorem InSessionWith.execAll_expandUpdate_next (c : List Byte) (h : InSessionWith m s)
    (hfits : 8 * (m.length + c.length) < 2 ^ 64) :
    ∃ t, execAll (expandUpdate c) s = .next t ∧ InSessionWith (m ++ c) t := by
  induction c generalizing m s with
  | nil => exact ⟨s, rfl, by simpa using h⟩
  | cons b c ih =>
    rw [List.length_cons] at hfits
    obtain ⟨u, hu, hsession⟩ := h.exec_upd_next (b := b) (by omega)
    obtain ⟨t, ht, hsession⟩ := ih hsession (by rw [List.length_append, List.length_singleton]; omega)
    refine ⟨t, ?_, by simpa using hsession⟩
    rw [expandUpdate, List.map_cons, execAll, hu]
    exact ht

/-- R151 to R153: the padding leaves pending what completes the message to `PAD(m)`, and `H` as it was. -/
theorem InSessionWith.padBuffer_next (h : InSessionWith m s) :
    ∃ t, padBuffer s = .next t ∧ PendingBytes (partialBlock m ++ padSuffix m) t ∧ t.hash = s.hash := by
  obtain ⟨hlt, hmod⟩ := padZeros_spec m.length
  have hbitlen : s.bitlen = BitVec.ofNat 64 (8 * m.length) := by
    rw [← h.bitlen, BitVec.ofNat_toNat, BitVec.setWidth_eq]
  have hmarked := h.pendingBytes.appended (v := [markerByte]) (by simp; omega)
  have hfilled := hmarked.appended (v := List.replicate (padZeros m.length) fillByte) (by simp; omega)
  have hcounted := hfilled.appended (v := be64bytes s.bitlen) (by simp [length_be64bytes]; omega)
  refine ⟨((s.appended [markerByte]).appended (List.replicate (padZeros m.length) fillByte)).appended
    (be64bytes s.bitlen), ?_, ?_, rfl⟩
  · rw [padBuffer, h.pendingBytes.appendBytes_eq (by simp; omega), andThen_next,
      hmarked.zeroFill_eq hlt (by simpa using hmod) (by simp; omega), andThen_next]
    exact hfilled.appendBytes_eq (by simp [length_be64bytes]; omega)
  · rwa [padSuffix, ← hbitlen, ← List.append_assoc, ← List.append_assoc]

/-- R150, R155, R160: `FINAL` in the session of `m` leaves the hash of `m` as the valid digest. -/
theorem InSessionWith.exec_final_next (h : InSessionWith m s) :
    ∃ t, exec .final s = .next t ∧ t.hash = sha256 m ∧ t.phase = .spent := by
  obtain ⟨u, hu, hpending, hkept⟩ := h.padBuffer_next
  obtain ⟨v, hv, hhash⟩ := hpending.flushPadded_next (length_partialBlock_append_padSuffix m)
  refine ⟨_, execFinal_eq_next.2 ⟨h.phase, u, v, hu, hv, rfl⟩, ?_, rfl⟩
  rw [releaseTransients_hash, hhash, hkept, h.hash, sha256, pad_eq_append_padSuffix,
    compressBlocks_append_partialBlock iv m]

end

/-- R161: `INIT; UPDATE m; FINAL`, executed from any state, leaves the hash of `m` as the valid digest. -/
theorem execAll_expandHash (s : State) {m : List Byte} (hfits : 8 * m.length < 2 ^ 64) :
    ∃ t, execAll (expandHash m) s = .next t ∧ t.hash = sha256 m ∧ t.phase = .spent := by
  obtain ⟨u, hu, hsession⟩ := exec_init_inSessionWith s
  obtain ⟨v, hv, hsession⟩ := hsession.execAll_expandUpdate_next m (by simpa using hfits)
  obtain ⟨t, ht, hdone⟩ := hsession.exec_final_next
  refine ⟨t, ?_, by simpa using hdone⟩
  rw [expandHash, execAll, hu, andThen_next, execAll_append, hv, andThen_next, execAll, ht]
  rfl

/-- R161 on the channel: the run of a whole session, begun from any state. -/
theorem runsTo_expandHash (s : State) {m : List Byte} (hfits : 8 * m.length < 2 ^ 64) :
    ∃ t, RunsTo (m.length + 2) { s with channel := channelOf (expandHash m) } t ∧
      t.hash = sha256 m ∧ t.digestValid = true := by
  obtain ⟨t, ht, hhash, hphase⟩ := execAll_expandHash (s.withChannel []) hfits
  refine ⟨t, ?_, hhash, by rw [State.digestValid, hphase]⟩
  have hrun := runSteps_channelOf (expandHash m) [] s
  rwa [length_expandHash, List.append_nil, ht] at hrun

/-- Settles O55: both runs end with the hash of the message, which no state enters. -/
theorem hashingTwiceAgrees : Obligations.HashingTwiceAgrees := by
  intro s₁ s₂ m hfits
  obtain ⟨t₁, hrun₁, hhash₁, hvalid₁⟩ := runsTo_expandHash s₁ hfits
  obtain ⟨t₂, hrun₂, hhash₂, hvalid₂⟩ := runsTo_expandHash s₂ hfits
  exact ⟨t₁, t₂, hrun₁, hrun₂, hvalid₁, hvalid₂, by rw [hhash₁, hhash₂]⟩

end Sys2Proof.Machine
end

section
/-! The renderings of the digest (43_finalize.md R156, R157): `DIGEST_BYTES` is the digest cut into bytes from the top, and
`DIGEST_HEX` is `DIGEST_BYTES` with each byte written as its two digits. -/

namespace Sys2Proof.Machine

/-! Lists joined from pieces of one length: the place of an element is its piece and its place in the piece. -/

theorem length_flatMap_of_length_eq {α β : Type} {f : α → List β} {n : Nat} (hf : ∀ a, (f a).length = n) (l : List α) :
    (l.flatMap f).length = l.length * n := by
  simp [List.length_flatMap, hf]

theorem getElem?_flatMap_of_length_eq {α β : Type} {f : α → List β} {n : Nat} (hf : ∀ a, (f a).length = n)
    (l : List α) (i : Nat) {j : Nat} (hj : j < n) :
    (l.flatMap f)[n * i + j]? = l[i]?.bind fun a => (f a)[j]? := by
  induction l generalizing i with
  | nil => rfl
  | cons a l ih =>
    cases i with
    | zero => rw [Nat.mul_zero, Nat.zero_add, List.flatMap_cons, List.getElem?_append_left (by rwa [hf])]; rfl
    | succ i =>
      have hplace : n * (i + 1) + j - n = n * i + j := by rw [Nat.mul_succ]; omega
      rw [List.flatMap_cons, List.getElem?_append_right (by rw [hf, Nat.mul_succ]; omega), hf, hplace, ih,
        List.getElem?_cons_succ]

/-- Bits cut out of bits cut out of `x`. -/
theorem extractLsb'_extractLsb' {n : Nat} (x : BitVec n) (i : Nat) {m j k : Nat} (h : j + k ≤ m) :
    (x.extractLsb' i m).extractLsb' j k = x.extractLsb' (i + j) k := by
  apply BitVec.eq_of_getLsbD_eq
  intro b hb
  have hin : j + b < m := by omega
  simp [hb, hin, Nat.add_assoc]

/-! `DIGEST_BYTES`. -/

@[simp] theorem length_hashWords (H : HashState) : (hashWords H).length = 8 := rfl

@[simp] theorem length_be32bytes (w : Word) : (be32bytes w).length = 4 := rfl

theorem length_digestBytes (H : HashState) : (digestBytes H).length = 32 :=
  length_flatMap_of_length_eq length_be32bytes (hashWords H)

/-- R32 with the width left as the sum of the eight, the form in which the library's rules cut words off. -/
theorem extractLsb'_digestOf (H : HashState) (i k : Nat) :
    (digestOf H).extractLsb' i k =
      (H.h0 ++ H.h1 ++ H.h2 ++ H.h3 ++ H.h4 ++ H.h5 ++ H.h6 ++ H.h7).extractLsb' i k := rfl

/-- Word `i` of the 8 has `7 - i` words below it in `DIGEST` (R32): those are dropped, then it is the lowest. The sum of
the widths must stay a sum, so `simp` may not add it up. -/
theorem hashWords_eq_map (H : HashState) :
    hashWords H = (List.range 8).map fun i => (digestOf H).extractLsb' (32 * (7 - i)) 32 := by
  simp (disch := decide) [-Nat.reduceAdd, hashWords, extractLsb'_digestOf, List.range_succ,
    BitVec.extractLsb'_append_eq_of_le, BitVec.extractLsb'_append_eq_right, BitVec.extractLsb'_eq_self]

/-- Byte `j` of a word has `3 - j` bytes below it (R105). -/
theorem be32bytes_eq_map (w : Word) : be32bytes w = (List.range 4).map fun j => w.extractLsb' (8 * (3 - j)) 8 := rfl

/-- R156: byte `k` is byte `k % 4` of word `k / 4`. -/
theorem digestBytes_getElem? (H : HashState) {k : Nat} (hk : k < 32) :
    (digestBytes H)[k]? = some ((digestOf H).extractLsb' (248 - 8 * k) 8) := by
  have hword : k / 4 < 8 := by omega
  have hbyte : k % 4 < 4 := Nat.mod_lt _ (by decide)
  have hplace : 32 * (7 - k / 4) + 8 * (3 - k % 4) = 248 - 8 * k := by omega
  calc (digestBytes H)[k]?
      = ((hashWords H).flatMap be32bytes)[4 * (k / 4) + k % 4]? := by rw [Nat.div_add_mod, digestBytes]
    _ = (hashWords H)[k / 4]?.bind fun w => (be32bytes w)[k % 4]? :=
        getElem?_flatMap_of_length_eq length_be32bytes _ _ hbyte
    _ = some (((digestOf H).extractLsb' (32 * (7 - k / 4)) 32).extractLsb' (8 * (3 - k % 4)) 8) := by
        simp [hashWords_eq_map, be32bytes_eq_map, hword, hbyte]
    _ = some ((digestOf H).extractLsb' (248 - 8 * k) 8) := by
        rw [extractLsb'_extractLsb' _ _ (by omega), hplace]

/-- A rendering word by word, written out over the eight words. -/
theorem flatMap_hashWords {β : Type} (f : Word → List β) (H : HashState) :
    (hashWords H).flatMap f = f H.h0 ++ f H.h1 ++ f H.h2 ++ f H.h3 ++ f H.h4 ++ f H.h5 ++ f H.h6 ++ f H.h7 := by
  simp [hashWords]

/-- Settles O35: each byte by its word and its place there. -/
theorem digestBytesAreTheDigest : Obligations.DigestBytesAreTheDigest := fun H =>
  ⟨length_digestBytes H, flatMap_hashWords be32bytes H, fun _ hk => digestBytes_getElem? H hk⟩

/-! `DIGEST_HEX`. -/

/-- The two digits of a byte, the high nibble first. -/
def hexByte (b : Byte) : List Char := [hexDigit (b.extractLsb' 4 4), hexDigit (b.extractLsb' 0 4)]

@[simp] theorem length_hexByte (b : Byte) : (hexByte b).length = 2 := rfl

/-- `HEX8` writes out the bytes of the word (R105, R106). -/
theorem hex8_eq_flatMap_hexByte (w : Word) : hex8 w = (be32bytes w).flatMap hexByte := by
  simp [hex8, be32bytes, hexByte, extractLsb'_extractLsb']

/-- `DIGEST_HEX` writes out `DIGEST_BYTES`. -/
theorem digestHex_eq_flatMap_hexByte (H : HashState) : digestHex H = (digestBytes H).flatMap hexByte := by
  rw [digestHex, digestBytes, List.flatMap_assoc]
  exact List.flatMap_congr fun w _ => hex8_eq_flatMap_hexByte w

theorem length_digestHex (H : HashState) : (digestHex H).length = 64 := by
  rw [digestHex_eq_flatMap_hexByte, length_flatMap_of_length_eq length_hexByte, length_digestBytes]

/-- R106: the digit of each of the 16 nibbles is of `0-9a-f`. -/
theorem hexDigit_range : ∀ n : BitVec 4,
    ('0' ≤ hexDigit n ∧ hexDigit n ≤ '9') ∨ ('a' ≤ hexDigit n ∧ hexDigit n ≤ 'f') := by decide

theorem digestHex_range (H : HashState) : ∀ c ∈ digestHex H, ('0' ≤ c ∧ c ≤ '9') ∨ ('a' ≤ c ∧ c ≤ 'f') := by
  rw [digestHex_eq_flatMap_hexByte, List.forall_mem_flatMap]
  intro b _
  simp [hexByte, hexDigit_range]

/-- Character `2k + j` is digit `j` of byte `k`. -/
theorem digestHex_getElem? {H : HashState} {k j : Nat} {b : Byte} (hb : (digestBytes H)[k]? = some b) (hj : j < 2) :
    (digestHex H)[2 * k + j]? = (hexByte b)[j]? := by
  rw [digestHex_eq_flatMap_hexByte, getElem?_flatMap_of_length_eq length_hexByte _ _ hj, hb, Option.bind_some]

/-- Settles O36: the hexadecimal digits are those of `DIGEST_BYTES`, two for each byte. -/
theorem digestHexIs64LowercaseDigits : Obligations.DigestHexIs64LowercaseDigits := fun H =>
  ⟨length_digestHex H, flatMap_hashWords hex8 H, digestHex_range H, fun _ _ _ hb =>
    ⟨digestHex_getElem? hb Nat.zero_lt_two, digestHex_getElem? hb Nat.one_lt_two⟩⟩

end Sys2Proof.Machine
end

section
/-! The refusals of 60_exceptions.md: by the word, before anything is asked of the state (R175), and by the phase, where
only `INIT` is defined (R172, R173). -/

namespace Sys2Proof.Machine

section
variable {s : State}

/-- R175: a reserved word is refused with no question of the state but which word it is. -/
theorem step_of_decode_eq_reserved {w : CommandWord} {es : List Event} (hc : s.channel = .command w :: es)
    (hd : decode w = .reserved) : step s = .refused .reservedEncoding := by
  simp [step, takeEvent, hc, hd]

/-- `UPD` and `FINAL` ask for a session before anything else. -/
theorem exec_eq_inSession {i : Instr} (hi : i ≠ .init) (s : State) : ∃ k, exec i s = inSession s k := by
  cases i with
  | init => exact absurd rfl hi
  | upd b => rw [exec, execUpd]; exact ⟨_, rfl⟩
  | final => rw [exec, execFinal]; exact ⟨_, rfl⟩

/-- R173. -/
theorem exec_of_phase_none {i : Instr} (hi : i ≠ .init) (h : s.phase = .none) :
    exec i s = .refused .commandWithoutSession := by
  obtain ⟨k, hk⟩ := exec_eq_inSession hi s
  rw [hk, inSession, h]

/-- R172. -/
theorem exec_of_phase_spent {i : Instr} (hi : i ≠ .init) (h : s.phase = .spent) :
    exec i s = .refused .commandInSpentPhase := by
  obtain ⟨k, hk⟩ := exec_eq_inSession hi s
  rw [hk, inSession, h]

end

/-- R130: `INIT` is defined in every phase, and leaves a session. -/
theorem exec_init_phase (s : State) : ∃ t, exec .init s = .next t ∧ t.phase = .active := by
  obtain ⟨t, ht, hsession⟩ := exec_init_inSessionWith s
  exact ⟨t, ht, hsession.phase⟩

/-- Settles O9: the words of the hypothesis are those the decoder reserves (R76). -/
theorem reservedWordIsRefused : Obligations.ReservedWordIsRefused := fun _ w _ hc hw =>
  step_of_decode_eq_reserved hc ((decode_eq_reserved_iff w).2 (by omega))

/-- Settles O20: a spent session refuses every command but `INIT`. -/
theorem spentSessionTakesOnlyInit : Obligations.SpentSessionTakesOnlyInit := fun s hs =>
  ⟨fun b => exec_of_phase_spent (i := .upd b) nofun hs, exec_of_phase_spent nofun hs, exec_init_phase s⟩

/-- Settles O21: without a session every command but `INIT` is refused. -/
theorem noSessionTakesOnlyInit : Obligations.NoSessionTakesOnlyInit := fun s hs =>
  ⟨fun b => exec_of_phase_none (i := .upd b) nofun hs, exec_of_phase_none nofun hs, exec_init_phase s⟩

end Sys2Proof.Machine
end

section
/-! The words of the commands (30_encoding.md R71 to R75): a word and a command determine each other. -/

namespace Sys2Proof

/-- R71: the data bits stand below the operation select. -/
theorem toNat_encode_upd (b : Byte) : (encode (.upd b)).toNat = 0x200 + b.toNat := by
  have happend : 0b10#2 ++ b = encode (.upd b) := rfl
  rw [← happend, Machine.toNat_append_byte]
  rfl

/-- R73 to R75: a word decodes to a command exactly where it is the word of that command. -/
theorem decode_eq_command_iff (w : CommandWord) (i : Instr) : decode w = .command i ↔ w = encode i := by
  constructor
  · intro h
    rw [decode_eq_by_fields] at h
    split_ifs at h with hinit hupd hfinal <;> cases h <;> apply BitVec.eq_of_toNat_eq
    · have hword : (encode .init).toNat = 0x100 := rfl
      omega
    · rw [toNat_encode_upd, BitVec.toNat_ofNat]
      omega
    · have hword : (encode .final).toNat = 0x300 := rfl
      omega
  · rintro rfl
    exact Machine.decode_encode i

/-- Settles O3: the three words, and that no other word is one of a command. -/
theorem decodeAndEncodeAgree : Obligations.DecodeAndEncodeAgree :=
  ⟨⟨rfl, toNat_encode_upd, rfl⟩, decode_eq_command_iff⟩

end Sys2Proof
end

section
/-! Appends one after another, and the padding of `FINAL` as one append (20_memory.md R51, 43_finalize.md R151 to R153). -/

namespace Sys2Proof.Machine

/-- A list written behind another is the joined list written at once. -/
theorem Memory.writeList_append (v w : List Byte) (m : Memory) (a : Nat) :
    Memory.writeList m a (v ++ w) = Memory.writeList (Memory.writeList m a v) (a + v.length) w := by
  induction v generalizing m a with
  | nil => simp
  | cons b v ih =>
    have hplace : a + 1 + v.length = a + (v.length + 1) := by omega
    simp [ih, hplace]

section
variable {s t : State} {v w : List Byte}

theorem appendBytes_eq_appended (hroom : s.buflen.toNat + v.length ≤ 128) :
    appendBytes v s = .next (s.appended v) :=
  appendBytes_eq_next.2 ⟨hroom, rfl⟩

theorem toNat_appended_buflen (hroom : s.buflen.toNat + v.length ≤ 128) :
    (s.appended v).buflen.toNat = s.buflen.toNat + v.length := by
  simp only [State.appended, BitVec.toNat_add, BitVec.toNat_ofNat]
  omega

theorem read_appended (s : State) (v : List Byte) (a : Nat) :
    Memory.read (s.appended v).buf a =
      if s.buflen.toNat ≤ a ∧ a < s.buflen.toNat + v.length then v[a - s.buflen.toNat]? else Memory.read s.buf a :=
  Memory.read_writeList v s.buf s.buflen.toNat a

/-- Two appends are one append of both lists. -/
theorem appended_appended (hroom : s.buflen.toNat + v.length ≤ 128) :
    (s.appended v).appended w = s.appended (v ++ w) := by
  have hlen := toNat_appended_buflen hroom
  simp only [State.appended] at hlen ⊢
  rw [hlen, Memory.writeList_append, List.length_append, BitVec.ofNat_add, BitVec.add_assoc]

/-- The zero bytes of the padding, by how far the last block is filled (R152). -/
theorem padZeros_eq_ite (n : Nat) :
    padZeros n = if n % 64 ≤ 55 then 55 - n % 64 else 119 - n % 64 := by
  unfold padZeros
  split_ifs <;> omega

/-- R152: behind the marker of `L` pending bytes the zero fill is one append of the padding's zero bytes. -/
theorem zeroFill_eq_appended {L : Nat} (hL : L ≤ 63) (hlen : s.buflen.toNat = L + 1) :
    zeroFill 63 s = .next (s.appended (List.replicate (padZeros L) fillByte)) := by
  obtain ⟨hlt, hmod⟩ := padZeros_spec L
  rw [zeroFill_next (z := padZeros L) (by omega) (by omega) (by omega) (by omega), State.appended,
    List.length_replicate]

/-- What `FINAL` puts behind `L` pending bytes where `BITLEN` is `n`: marker, zeros, bit count. -/
def padding (L : Nat) (n : BitVec 64) : List Byte :=
  [markerByte] ++ List.replicate (padZeros L) fillByte ++ be64bytes n

@[simp] theorem length_padding (L : Nat) (n : BitVec 64) : (padding L n).length = padZeros L + 9 := by
  simp [padding, length_be64bytes]

/-- R151 to R153 as one append. -/
theorem padBuffer_eq_appended (hlen : s.buflen.toNat ≤ 63) :
    padBuffer s = .next (s.appended (padding s.buflen.toNat s.bitlen)) := by
  obtain ⟨hlt, hmod⟩ := padZeros_spec s.buflen.toNat
  have hmarker : s.buflen.toNat + [markerByte].length ≤ 128 := by simp; omega
  have hzeros : s.buflen.toNat + ([markerByte] ++ List.replicate (padZeros s.buflen.toNat) fillByte).length ≤ 128 := by
    simp; omega
  rw [padBuffer, appendBytes_eq_appended hmarker, andThen_next,
    zeroFill_eq_appended hlen (toNat_appended_buflen hmarker), andThen_next, appended_appended hmarker,
    appendBytes_eq_appended (by rw [toNat_appended_buflen hzeros]; simp [length_be64bytes]; omega),
    appended_appended hzeros]
  rfl

/-- Settles O23: the zero fill is one append, of the `55 - L` or `119 - L` zero bytes of R152. -/
theorem zeroFillStopsAt56 : Obligations.ZeroFillStopsAt56 := by
  intro s L hL hlen
  obtain ⟨hlt, hmod⟩ := padZeros_spec L
  have hz : padZeros L = if L ≤ 55 then 55 - L else 119 - L := by
    rw [padZeros_eq_ite, Nat.mod_eq_of_lt (by omega)]
  have hlen' : (s.appended (List.replicate (padZeros L) fillByte)).buflen.toNat = L + 1 + padZeros L := by
    rw [toNat_appended_buflen (by simp; omega), hlen, List.length_replicate]
  refine ⟨_, zeroFill_eq_appended hL hlen, by rw [hlen', hz], by omega, rfl, fun a => ?_⟩
  rw [read_appended, hlen', hlen, List.length_replicate]
  refine if_ctx_congr Iff.rfl (fun hin => ?_) fun _ => rfl
  rw [List.getElem?_replicate, if_pos (by omega), fillByte]

/-- Byte `k` of the padding: the marker, the zeros up to the suffix, then the bytes of the bit count (R59). -/
theorem padding_getElem? (L : Nat) (n : BitVec 64) {k : Nat} (hk : k < padZeros L + 9) :
    (padding L n)[k]? =
      if k = 0 then some 0x80#8
      else if k < padZeros L + 1 then some 0x00#8
      else some (BitVec.ofNat 8 (n.toNat / 256 ^ (padZeros L + 8 - k))) := by
  rw [padding, List.append_assoc, List.singleton_append]
  cases k with
  | zero => rfl
  | succ k =>
    rw [List.getElem?_cons_succ, if_neg (by omega)]
    split_ifs with hzero
    · rw [List.getElem?_append_left (by simp; omega), List.getElem?_replicate, if_pos (by omega), fillByte]
    · have hplace : 7 - (k - padZeros L) = padZeros L + 8 - (k + 1) := by omega
      rw [List.getElem?_append_right (by simp; omega), List.length_replicate, be64bytes_eq_map, List.getElem?_map,
        List.getElem?_range (by omega), Option.map_some, extractByte_eq_ofNat_div, hplace]

/-- Settles O22: the padding is one append, and its bytes stand in the order of R59. -/
theorem paddingLaysOutTheBuffer : Obligations.PaddingLaysOutTheBuffer := by
  intro s L E hL hle hE
  obtain ⟨hlt, hmod⟩ := padZeros_spec L
  have hend : L + (padZeros L + 9) = E + 8 := by
    rw [hE, padZeros_eq_ite, Nat.mod_eq_of_lt (by omega)]
    split_ifs <;> omega
  have hpad := padBuffer_eq_appended (s := s) (by omega)
  rw [hL] at hpad
  refine ⟨_, hpad, ?_, fun a => ?_, rfl⟩
  · rw [toNat_appended_buflen (by rw [length_padding]; omega), hL, length_padding, hend]
  · rw [read_appended, hL, length_padding, hend]
    by_cases hin : L ≤ a ∧ a < E + 8
    · have hmarker : a - L = 0 ↔ a = L := by omega
      have hzero : a - L < padZeros L + 1 ↔ a < E := by omega
      have hplace : padZeros L + 8 - (a - L) = E + 7 - a := by omega
      rw [if_pos hin, if_neg (by omega), padding_getElem? _ _ (by omega), hplace, if_pos hin.2]
      simp only [hmarker, hzero]
    · rw [if_neg hin]
      by_cases hlow : a < L
      · rw [if_pos hlow]
      · rw [if_neg hlow, if_neg (by omega), if_neg (by omega), if_neg (by omega)]

end

end Sys2Proof.Machine
end

section
/-! What `UPD` can do (42_ingest.md R131), said once: append and count, and where the block fills, compress it. -/

namespace Sys2Proof.Machine

/-- The byte appended and counted. -/
def State.counted (b : Byte) (s : State) : State :=
  { s with
    buf := Memory.write s.buf s.buflen.toNat b
    buflen := s.buflen + 1
    bitlen := s.bitlen + 8 }

/-- The block compressed and the buffer emptied: the end of the `UPD` that fills the block. -/
def State.flushed (blk : Block) (s : State) : State := releaseTransients { transform blk s with buflen := 0 }

section
variable {s t : State} {b : Byte}

theorem toNat_counted_bitlen (h : s.bitlen.toNat ≤ 2 ^ 64 - 16) :
    (s.counted b).bitlen.toNat = s.bitlen.toNat + 8 := by
  rw [State.counted, BitVec.toNat_add]
  exact Nat.mod_eq_of_lt (by simp; omega)

theorem toNat_counted_buflen (h : s.buflen.toNat + 1 ≤ 128) : (s.counted b).buflen.toNat = s.buflen.toNat + 1 := by
  rw [State.counted, BitVec.toNat_add]
  exact Nat.mod_eq_of_lt (by simp; omega)

theorem read_counted (b : Byte) (s : State) (a : Nat) :
    Memory.read (s.counted b).buf a = if a = s.buflen.toNat then some b else Memory.read s.buf a :=
  Memory.read_write s.buf s.buflen.toNat a b

@[simp] theorem counted_hash (b : Byte) (s : State) : (s.counted b).hash = s.hash := rfl
@[simp] theorem counted_phase (b : Byte) (s : State) : (s.counted b).phase = s.phase := rfl
@[simp] theorem counted_channel (b : Byte) (s : State) : (s.counted b).channel = s.channel := rfl

@[simp] theorem flushed_hash (blk : Block) (s : State) : (s.flushed blk).hash = compress s.hash blk := by
  simp [State.flushed]
@[simp] theorem flushed_bitlen (blk : Block) (s : State) : (s.flushed blk).bitlen = s.bitlen := by
  simp [State.flushed]
@[simp] theorem flushed_buflen (blk : Block) (s : State) : (s.flushed blk).buflen = 0 := by
  simp [State.flushed]
@[simp] theorem flushed_phase (blk : Block) (s : State) : (s.flushed blk).phase = s.phase := by
  simp [State.flushed]
@[simp] theorem flushed_buf (blk : Block) (s : State) : (s.flushed blk).buf = s.buf := by
  simp [State.flushed]
@[simp] theorem flushed_channel (blk : Block) (s : State) : (s.flushed blk).channel = s.channel := by
  simp [State.flushed]

/-- When `UPD` completes and what it answers: below 63 pending bytes the appended state, at 63 that state flushed. -/
theorem exec_upd_eq_next :
    exec (.upd b) s = .next t ↔
      s.phase = .active ∧ s.bitlen.toNat ≤ 2 ^ 64 - 16 ∧ s.buflen.toNat + 1 ≤ 128 ∧
        (s.buflen.toNat ≠ 63 ∧ t = s.counted b ∨
          s.buflen.toNat = 63 ∧ ∃ blk : Block, (∀ i (h : i < 64), Memory.read (s.counted b).buf i = some blk[i]) ∧
            t = (s.counted b).flushed blk) := by
  refine execUpd_eq_next.trans (and_congr_right fun _ => and_congr_right fun _ => and_congr_right fun hroom => ?_)
  refine (flushFull_eq_next (s := s.counted b)).trans ?_
  have hfull : (s.counted b).buflen.toNat = 64 ↔ s.buflen.toNat = 63 := by
    rw [toNat_counted_buflen hroom]
    omega
  rw [ne_eq, hfull]
  rfl

/-- Settles O16: below 63 pending bytes the answer is the appended and counted state. -/
theorem updAppendsTheByte : Obligations.UpdAppendsTheByte := by
  intro s b hphase hbitlen hbuflen
  exact ⟨s.counted b, exec_upd_eq_next.2 ⟨hphase, hbitlen, by omega, .inl ⟨by omega, rfl⟩⟩,
    toNat_counted_buflen (by omega), toNat_counted_bitlen hbitlen, read_counted b s, rfl, rfl, rfl, rfl, rfl, rfl⟩

/-- Settles O17: the cells hold the block once the 64th byte has been appended, and the flush compresses it. -/
theorem updFlushesTheFullBlock : Obligations.UpdFlushesTheFullBlock := by
  intro s b blk hphase hbitlen hbuflen hread hlast
  have hblock : ∀ i (h : i < 64), Memory.read (s.counted b).buf i = some blk[i] := by
    intro i hi
    rw [read_counted, hbuflen]
    split_ifs with h63
    · subst h63
      rw [hlast]
    · exact hread i (by omega)
  refine ⟨(s.counted b).flushed blk,
    exec_upd_eq_next.2 ⟨hphase, hbitlen, by omega, .inr ⟨hbuflen, blk, hblock, rfl⟩⟩, ?_, ?_, ?_, ?_, fun a => ?_, ?_⟩
  · rw [flushed_hash, counted_hash]
  · rw [flushed_buflen]
  · rw [flushed_bitlen, toNat_counted_bitlen hbitlen]
  · rw [flushed_phase, counted_phase, hphase]
  · rw [flushed_buf, read_counted, hbuflen]
  · rw [flushed_channel, counted_channel]

/-- R174: at the ceiling `UPD` is refused for the value. -/
theorem exec_upd_of_ceiling (hphase : s.phase = .active) (hbitlen : 2 ^ 64 - 16 < s.bitlen.toNat) :
    exec (.upd b) s = .refused .bitLengthOverflow := by
  rw [exec, execUpd, inSession_active hphase, if_neg (by rw [lastBitlen]; omega)]

/-- Settles O19: the value is asked in a session; elsewhere the phase has refused before (R179). -/
theorem updIsRefusedAtTheCeiling : Obligations.UpdIsRefusedAtTheCeiling := fun _ _ =>
  ⟨fun hphase hbitlen => exec_upd_of_ceiling hphase (by omega), fun hphase _ => exec_of_phase_spent nofun hphase⟩

/-- Cells that hold values hold those of a vector. -/
theorem exists_vector_of_read {m : Memory} {n : Nat} (h : ∀ a < n, ∃ b, Memory.read m a = some b) :
    ∃ v : Vector Byte n, ∀ i (hi : i < n), Memory.read m i = some v[i] := by
  refine ⟨Vector.ofFn fun i => (Memory.read m i.val).getD 0, fun i hi => ?_⟩
  obtain ⟨b, hb⟩ := h i hi
  simp [hb]

/-- In a session the invariant leaves room in the first block. -/
theorem MachineInv.buflen_lt (h : MachineInv s) (hphase : s.phase = .active) : s.buflen.toNat < 64 := by
  rw [h.active hphase]
  exact Nat.mod_lt _ (by decide)

/-- R29 for `UPD`: with the byte appended the pending bytes still hold values. -/
theorem PendingHeld.counted (h : PendingHeld s) (b : Byte) :
    ∀ a < s.buflen.toNat + 1, ∃ c, Memory.read (s.counted b).buf a = some c := by
  intro a ha
  rw [read_counted]
  split_ifs with hlast
  · exact ⟨b, rfl⟩
  · exact h a (by omega)

/-- R131, "Defined when": below the ceiling `UPD` completes in a session. -/
theorem exec_upd_completes (b : Byte) (h : MachineInv s) (hphase : s.phase = .active)
    (hbitlen : s.bitlen.toNat ≤ 2 ^ 64 - 16) : ∃ t, exec (.upd b) s = .next t := by
  have hlt := h.buflen_lt hphase
  by_cases h63 : s.buflen.toNat = 63
  · have hheld := (h.pending hphase).counted b
    rw [h63] at hheld
    obtain ⟨blk, hblk⟩ := exists_vector_of_read hheld
    exact ⟨_, exec_upd_eq_next.2 ⟨hphase, hbitlen, by omega, .inr ⟨h63, blk, hblk, rfl⟩⟩⟩
  · exact ⟨_, exec_upd_eq_next.2 ⟨hphase, hbitlen, by omega, .inl ⟨h63, rfl⟩⟩⟩

/-- What a completed `UPD` leaves, from any state, whether or not the block fills. -/
structure ByteTaken (b : Byte) (s t : State) : Prop where
  wasActive : s.phase = .active
  phase : t.phase = .active
  bitlen : t.bitlen.toNat = s.bitlen.toNat + 8
  channel : t.channel = s.channel
  buf : t.buf = (s.counted b).buf

theorem exec_upd_byteTaken (h : exec (.upd b) s = .next t) : ByteTaken b s t := by
  obtain ⟨hphase, hbitlen, -, ⟨-, rfl⟩ | ⟨-, blk, -, rfl⟩⟩ := exec_upd_eq_next.1 h
  · exact ⟨hphase, hphase, toNat_counted_bitlen hbitlen, rfl, rfl⟩
  · exact ⟨hphase, by simp [hphase], by simp [toNat_counted_bitlen hbitlen], by simp, by simp⟩

/-- R131 on `BUFLEN`, in a session. -/
theorem exec_upd_buflen (h : exec (.upd b) s = .next t) (hlt : s.buflen.toNat < 64) :
    t.buflen.toNat = (s.buflen.toNat + 1) % 64 := by
  obtain ⟨-, -, hroom, ⟨h63, rfl⟩ | ⟨h63, blk, -, rfl⟩⟩ := exec_upd_eq_next.1 h
  · rw [toNat_counted_buflen hroom, Nat.mod_eq_of_lt (by omega)]
  · rw [flushed_buflen, h63]
    rfl

/-- R23 for `UPD`: `H` changes where the block fills, by one compression. -/
theorem exec_upd_hash (h : exec (.upd b) s = .next t) :
    t.hash = s.hash ∨ s.buflen.toNat = 63 ∧ ∃ blk, t.hash = compress s.hash blk := by
  obtain ⟨-, -, -, ⟨-, rfl⟩ | ⟨h63, blk, -, rfl⟩⟩ := exec_upd_eq_next.1 h
  · exact .inl rfl
  · exact .inr ⟨h63, blk, by rw [flushed_hash, counted_hash]⟩

/-- Settles O18: the invariant supplies the room and the 64 values that the two branches of `UPD` ask for. -/
theorem updCompletesInASession : Obligations.UpdCompletesInASession := by
  intro s b hinv hphase hbitlen
  obtain ⟨t, ht⟩ := exec_upd_completes b hinv hphase hbitlen
  have htaken := exec_upd_byteTaken ht
  exact ⟨t, ht, htaken.phase, htaken.bitlen, exec_upd_buflen ht (hinv.buflen_lt hphase),
    fun h63 => (exec_upd_hash ht).resolve_right fun ⟨hfull, _⟩ => h63 hfull⟩

end

end Sys2Proof.Machine
end

section
/-! What `FINAL` can do (43_finalize.md R150 to R155), said once, and that it completes in every session. -/

namespace Sys2Proof.Machine

section
variable {s t u : State}

/-- What every append keeps, the zero fill keeps. -/
theorem zeroFill_induction {P : State → Prop}
    (happend : ∀ {v u u'}, appendBytes v u = .next u' → P u → P u') {fuel : Nat} (h : zeroFill fuel s = .next t)
    (hs : P s) : P t := by
  induction fuel generalizing s with
  | zero => cases h; exact hs
  | succ fuel ih =>
    rw [zeroFill] at h
    split_ifs at h with hstop
    · cases h; exact hs
    · obtain ⟨u, hu, hrest⟩ := andThen_eq_next.1 h
      exact ih hrest (happend hu hs)

/-- What every append keeps, the padding keeps. -/
theorem padBuffer_induction {P : State → Prop}
    (happend : ∀ {v u u'}, appendBytes v u = .next u' → P u → P u') (h : padBuffer s = .next t) (hs : P s) : P t := by
  obtain ⟨u, hmarker, h'⟩ := andThen_eq_next.1 h
  obtain ⟨v, hzeros, hcount⟩ := andThen_eq_next.1 h'
  exact happend hcount (zeroFill_induction happend hzeros (happend hmarker hs))

/-- Between `s` and `u` bytes have been written at or above `BUFLEN`, inside the buffer, and nowhere else. -/
structure WritesAbove (s u : State) : Prop where
  buflen : s.buflen.toNat ≤ u.buflen.toNat
  read : ∀ a, a < s.buflen.toNat ∨ 128 ≤ a → Memory.read u.buf a = Memory.read s.buf a

theorem WritesAbove.refl (s : State) : WritesAbove s s := ⟨le_rfl, fun _ _ => rfl⟩

theorem WritesAbove.appendBytes {v : List Byte} (h : appendBytes v u = .next t) (hu : WritesAbove s u) :
    WritesAbove s t := by
  obtain ⟨hroom, rfl⟩ := appendBytes_eq_next.1 h
  have hlen := toNat_appended_buflen hroom
  refine ⟨hu.buflen.trans (le_of_le_of_eq (by omega) hlen.symm), fun a ha => ?_⟩
  have hout : ¬(u.buflen.toNat ≤ a ∧ a < u.buflen.toNat + v.length) := by
    have := hu.buflen
    omega
  exact (read_appended u v a).trans ((if_neg hout).trans (hu.read a ha))

theorem padBuffer_writesAbove (h : padBuffer s = .next t) : WritesAbove s t :=
  padBuffer_induction WritesAbove.appendBytes h (.refl s)

/-- The padding keeps the cells in canonical form and inside the buffer. -/
theorem padBuffer_wf (h : padBuffer s = .next t) (hs : Memory.wf s.buf ∧ ∀ c ∈ s.buf, c.1 < bufCapacity) :
    Memory.wf t.buf ∧ ∀ c ∈ t.buf, c.1 < bufCapacity :=
  padBuffer_induction (P := fun u => Memory.wf u.buf ∧ ∀ c ∈ u.buf, c.1 < bufCapacity)
    (fun happ hu => appendBytes_wf happ hu.1 hu.2) h hs

/-- R154: the flush of `FINAL` is one compression or two, and leaves the buffer and the counts alone. -/
theorem flushPadded_effect (h : flushPadded s = .next t) :
    (t.phase = s.phase ∧ t.bitlen = s.bitlen ∧ t.buf = s.buf ∧ t.channel = s.channel) ∧
      ∃ blks : List Block, (blks.length = 1 ∨ blks.length = 2) ∧ t.hash = compressBlocks s.hash blks := by
  obtain ⟨blk, -, ⟨-, rfl⟩ | ⟨-, blk', -, rfl⟩⟩ := flushPadded_eq_next.1 h
  · exact ⟨by simp, [blk], by simp [compressBlocks]⟩
  · exact ⟨by simp, [blk, blk'], by simp [compressBlocks]⟩

/-- What a completed `FINAL` leaves, from any state. -/
structure Finalized (s t : State) : Prop where
  wasActive : s.phase = .active
  phase : t.phase = .spent
  buflen : t.buflen = 0
  bitlen : t.bitlen = s.bitlen
  channel : t.channel = s.channel
  buf : ∃ u, padBuffer s = .next u ∧ t.buf = u.buf
  hash : ∃ blks : List Block, (blks.length = 1 ∨ blks.length = 2) ∧ t.hash = compressBlocks s.hash blks

theorem exec_final_finalized (h : exec .final s = .next t) : Finalized s t := by
  obtain ⟨hphase, u, v, hu, hv, rfl⟩ := execFinal_eq_next.1 h
  have hframe := padBuffer_frame hu
  obtain ⟨⟨-, hbitlen, hbuf, hchannel⟩, hhash⟩ := flushPadded_effect hv
  exact {
    wasActive := hphase
    phase := by simp
    buflen := by simp
    bitlen := by rw [releaseTransients_bitlen, hbitlen, hframe]
    channel := by rw [releaseTransients_channel, hchannel, hframe]
    buf := ⟨u, hu, by rw [releaseTransients_buf, hbuf]⟩
    hash := by rwa [hframe] at hhash }

theorem Finalized.digestValid (h : Finalized s t) : t.digestValid = true := by rw [State.digestValid, h.phase]

/-- R150 with the bytes `p` pending: they are padded to one block or two, and those compressed. -/
theorem PendingBytes.exec_final_next {p : List Byte} (h : PendingBytes p s) (hp : p.length ≤ 63)
    (hphase : s.phase = .active) :
    ∃ t, exec .final s = .next t ∧ t.hash = compressBlocks s.hash (blocksOf (p ++ padding p.length s.bitlen)) := by
  obtain ⟨hlt, hmod⟩ := padZeros_spec p.length
  have hpad : padBuffer s = .next (s.appended (padding p.length s.bitlen)) := by
    rw [padBuffer_eq_appended (by rw [h.length]; exact hp), h.length]
  have hpadded := h.appended (v := padding p.length s.bitlen) (by rw [length_padding]; omega)
  obtain ⟨v, hv, hhash⟩ := hpadded.flushPadded_next (by rw [List.length_append, length_padding]; omega)
  exact ⟨_, execFinal_eq_next.2 ⟨hphase, _, v, hpad, hv, rfl⟩, by rw [releaseTransients_hash, hhash]; rfl⟩

/-- R150 written out, with `z` zero bytes; the bytes pending, and those above the padded buffer, stay. -/
theorem PendingBytes.exec_final_padded {p : List Byte} (h : PendingBytes p s) (hp : p.length ≤ 63)
    (hphase : s.phase = .active) {z : Nat} (hz : padZeros p.length = z) :
    ∃ t, exec .final s = .next t ∧ Finalized s t ∧
      t.hash = compressBlocks s.hash
        (blocksOf (p ++ [0x80#8] ++ List.replicate z 0x00#8 ++ be64bytes s.bitlen)) ∧
      ∀ a, a < p.length ∨ p.length + z + 9 ≤ a → Memory.read t.buf a = Memory.read s.buf a := by
  obtain ⟨t, ht, hhash⟩ := h.exec_final_next hp hphase
  have hfinal := exec_final_finalized ht
  refine ⟨t, ht, hfinal, by simpa [padding, hz, markerByte, fillByte] using hhash, fun a ha => ?_⟩
  obtain ⟨u, hu, hbuf⟩ := hfinal.buf
  rw [padBuffer_eq_appended (by rw [h.length]; exact hp), h.length] at hu
  cases hu
  rw [hbuf, read_appended, h.length, length_padding, hz, if_neg (by omega)]

/-- Settles O24: the padded buffer is one block. -/
theorem finalCompressesOneBlock : Obligations.FinalCompressesOneBlock := by
  intro s m hphase hlen hle hread
  have hz : padZeros m.length = 55 - m.length := by
    rw [padZeros_eq_ite, Nat.mod_eq_of_lt (by omega), if_pos hle]
  obtain ⟨t, ht, hfinal, hhash, hkept⟩ := PendingBytes.exec_final_padded ⟨hlen, hread⟩ (by omega) hphase hz
  rw [blocksOf_eq_one (by simp [length_be64bytes]; omega)] at hhash
  exact ⟨t, ht, hhash, hfinal.phase, hfinal.digestValid, hfinal.buflen, hfinal.bitlen, hfinal.channel,
    fun a ha => hkept a (by omega)⟩

/-- Settles O25: the padded buffer is two blocks. -/
theorem finalCompressesTwoBlocks : Obligations.FinalCompressesTwoBlocks := by
  intro s m hphase hlen hge hle hread
  have hz : padZeros m.length = 119 - m.length := by
    rw [padZeros_eq_ite, Nat.mod_eq_of_lt (by omega), if_neg (by omega)]
  obtain ⟨t, ht, hfinal, hhash, hkept⟩ := PendingBytes.exec_final_padded ⟨hlen, hread⟩ hle hphase hz
  rw [blocksOf_eq_two (by simp [length_be64bytes]; omega)] at hhash
  exact ⟨t, ht, hhash, hfinal.phase, hfinal.digestValid, hfinal.buflen, hfinal.bitlen, hfinal.channel,
    fun a ha => hkept a (by omega)⟩

/-- R29: the valid bytes, where all of them hold values, are those of a list. -/
theorem PendingHeld.exists_pendingBytes (h : PendingHeld s) : ∃ p, PendingBytes p s := by
  obtain ⟨v, hv⟩ := exists_vector_of_read h
  refine ⟨v.toList, by simp, fun i hi => ?_⟩
  rw [Vector.length_toList] at hi
  rw [hv i hi]
  simp [hi]

/-- R150, "Defined when": `FINAL` completes in a session, whatever is pending. -/
theorem exec_final_completes (h : MachineInv s) (hphase : s.phase = .active) : ∃ t, exec .final s = .next t := by
  obtain ⟨p, hp⟩ := (h.pending hphase).exists_pendingBytes
  have hlt := h.buflen_lt hphase
  rw [hp.length] at hlt
  obtain ⟨t, ht, -⟩ := hp.exec_final_next (by omega) hphase
  exact ⟨t, ht⟩

/-- Settles O26: the invariant gives the pending bytes their values. -/
theorem finalCompletesInASession : Obligations.FinalCompletesInASession := by
  intro s hinv hphase
  obtain ⟨t, ht⟩ := exec_final_completes hinv hphase
  have hfinal := exec_final_finalized ht
  exact ⟨t, ht, hfinal.phase, hfinal.buflen, hfinal.bitlen, hfinal.digestValid⟩

end

end Sys2Proof.Machine
end

section
/-! What one step can be, and the machine invariant of 10_state.md R28, R29, R37 along it. -/

namespace Sys2Proof.Machine

section
variable {s t : State}

/-- What a step that answers can be: a wait, a command, or a reset. -/
theorem step_next_cases (h : step s = .next t) :
    (s.channel = [] ∧ t = s) ∨
      (∃ i es, s.channel = .command (encode i) :: es ∧ exec i (s.withChannel es) = .next t) ∨
      ∃ es, s.channel = .reset :: es ∧ t = resetEvent (s.withChannel es) := by
  obtain hidle | ⟨w, i, es, hc, hd, hexec⟩ | hreset := step_cases h
  · exact .inl hidle
  · obtain rfl := (decode_eq_command_iff w i).1 hd
    exact .inr (.inl ⟨i, es, hc, hexec⟩)
  · exact .inr (.inr hreset)

/-- Where there is no session the invariant is about the cells alone, and there are none. -/
theorem machineInv_of_no_cells (hphase : s.phase = .none) (hbuf : s.buf = []) : MachineInv s where
  wf := by rw [hbuf]; exact List.Pairwise.nil
  inRange := by simp [hbuf]
  wholeBytes h := absurd hphase h
  active h := by rw [hphase] at h; cases h
  pending h := by rw [hphase] at h; cases h
  spent h := by rw [hphase] at h; cases h

/-- Settles O48: there is no session and no cell. -/
theorem resetMeetsTheInvariant : Obligations.ResetMeetsTheInvariant := machineInv_of_no_cells rfl rfl

/-- With nothing pending, the invariant is about the cells and `BITLEN`. -/
theorem machineInv_of_buflen_zero (hcells : Memory.wf s.buf ∧ ∀ c ∈ s.buf, c.1 < bufCapacity)
    (hwhole : s.bitlen.toNat % 8 = 0) (hactive : s.phase = .active → s.bitlen.toNat / 8 % 64 = 0)
    (hbuflen : s.buflen = 0) : MachineInv s where
  wf := hcells.1
  inRange := hcells.2
  wholeBytes _ := hwhole
  active h := by rw [hbuflen, hactive h]; rfl
  pending _ a ha := by simp [hbuflen] at ha
  spent _ := hbuflen

/-- The channel does not enter the invariant. -/
theorem MachineInv.withChannel (h : MachineInv s) (es : List Event) : MachineInv (s.withChannel es) :=
  ⟨h.wf, h.inRange, h.wholeBytes, h.active, h.pending, h.spent⟩

/-- The cells of a session after an append and count. -/
theorem MachineInv.counted_wf (h : MachineInv s) (b : Byte) (hroom : s.buflen.toNat + 1 ≤ 128) :
    Memory.wf (s.counted b).buf ∧ ∀ c ∈ (s.counted b).buf, c.1 < bufCapacity := by
  refine ⟨Memory.wf_write h.wf _ b, fun c hc => ?_⟩
  obtain rfl | hc := Memory.mem_write hc
  · exact hroom
  · exact h.inRange c hc

/-- R37 where the block does not fill: both counts have risen by one byte, and that byte holds a value. -/
theorem MachineInv.counted (h : MachineInv s) (b : Byte) (hphase : s.phase = .active)
    (hbitlen : s.bitlen.toNat ≤ 2 ^ 64 - 16) (h63 : s.buflen.toNat ≠ 63) : MachineInv (s.counted b) := by
  have hlt := h.buflen_lt hphase
  have hcount := h.active hphase
  have hwhole := h.wholeBytes (by simp [hphase])
  have hlen := toNat_counted_buflen (s := s) (b := b) (by omega)
  have hbits := toNat_counted_bitlen (b := b) hbitlen
  obtain ⟨hwf, hrange⟩ := h.counted_wf b (by omega)
  exact {
    wf := hwf
    inRange := hrange
    wholeBytes := fun _ => by omega
    active := fun _ => by omega
    pending := fun _ => by
      rw [PendingHeld, hlen]
      exact (h.pending hphase).counted b
    spent := fun hspent => by
      rw [counted_phase, hphase] at hspent
      cases hspent }

/-- R37 where the block fills: `BITLEN` has reached a whole number of blocks, and nothing is pending. -/
theorem MachineInv.flushed (h : MachineInv s) (b : Byte) (blk : Block) (hphase : s.phase = .active)
    (hbitlen : s.bitlen.toNat ≤ 2 ^ 64 - 16) (h63 : s.buflen.toNat = 63) :
    MachineInv ((s.counted b).flushed blk) := by
  have hcount := h.active hphase
  have hwhole := h.wholeBytes (by simp [hphase])
  have hbits := toNat_counted_bitlen (b := b) hbitlen
  refine machineInv_of_buflen_zero ?_ ?_ (fun _ => ?_) (flushed_buflen _ _)
  · rw [flushed_buf]
    exact h.counted_wf b (by omega)
  · rw [flushed_bitlen]
    omega
  · rw [flushed_bitlen]
    omega

/-- Every command keeps the invariant. -/
theorem exec_keeps_machineInv {i : Instr} (h : MachineInv s) (hexec : exec i s = .next t) : MachineInv t := by
  cases i with
  | init =>
    cases hexec
    exact machineInv_of_buflen_zero ⟨h.wf, h.inRange⟩ (by simp) (by simp) rfl
  | upd b =>
    obtain ⟨hphase, hbitlen, -, ⟨h63, rfl⟩ | ⟨h63, blk, -, rfl⟩⟩ := exec_upd_eq_next.1 hexec
    · exact h.counted b hphase hbitlen h63
    · exact h.flushed b blk hphase hbitlen h63
  | final =>
    have hfinal := exec_final_finalized hexec
    obtain ⟨u, hu, hbuf⟩ := hfinal.buf
    refine machineInv_of_buflen_zero ?_ ?_ (fun hactive => ?_) hfinal.buflen
    · rw [hbuf]
      exact padBuffer_wf hu ⟨h.wf, h.inRange⟩
    · rw [hfinal.bitlen]
      exact h.wholeBytes (by simp [hfinal.wasActive])
    · rw [hfinal.phase] at hactive
      cases hactive

/-- Settles O49: the wait keeps the state, every command keeps the invariant, and reset empties the buffer. -/
theorem stepKeepsTheInvariant : Obligations.StepKeepsTheInvariant := by
  intro s t hinv hstep
  obtain ⟨-, rfl⟩ | ⟨i, es, -, hexec⟩ | ⟨es, -, rfl⟩ := step_next_cases hstep
  · exact hinv
  · exact exec_keeps_machineInv (hinv.withChannel es) hexec
  · exact machineInv_of_no_cells (resetEvent_phase _) (resetEvent_buf _)

/-- One of the five reasons of R182. -/
def Refusal.OfTheSpec (r : Refusal) : Prop :=
  r = .commandInSpentPhase ∨ r = .commandWithoutSession ∨ r = .bitLengthOverflow ∨ r = .reservedEncoding ∨
    r = .concurrentAccess

/-- The answer is a next state or a refusal for one of the five reasons of R182. -/
def AnswersBySpec (r : Answer State) : Prop := (∃ t, r = .next t) ∨ ∃ x, r = .refused x ∧ x.OfTheSpec

/-- From the invariant a command completes or is refused for its phase or for the ceiling. -/
theorem exec_answersBySpec (i : Instr) (h : MachineInv s) : AnswersBySpec (exec i s) := by
  by_cases hi : i = .init
  · subst hi
    exact .inl ⟨_, rfl⟩
  cases hphase : s.phase with
  | none => exact .inr ⟨_, exec_of_phase_none hi hphase, .inr (.inl rfl)⟩
  | spent => exact .inr ⟨_, exec_of_phase_spent hi hphase, .inl rfl⟩
  | active =>
    cases i with
    | init => exact absurd rfl hi
    | final => exact .inl (exec_final_completes h hphase)
    | upd b =>
      by_cases hbitlen : s.bitlen.toNat ≤ 2 ^ 64 - 16
      · exact .inl (exec_upd_completes b h hphase hbitlen)
      · exact .inr ⟨_, exec_upd_of_ceiling hphase (by omega), .inr (.inr (.inl rfl))⟩

/-- Two words at once are refused before anything is asked of them (R176). -/
theorem step_of_simultaneous {w₁ w₂ : CommandWord} {es : List Event} (hc : s.channel = .simultaneous w₁ w₂ :: es) :
    step s = .refused .concurrentAccess := by
  simp [step, takeEvent, hc]

theorem step_of_channel_nil (hc : s.channel = []) : step s = .next s := by
  simp [step, takeEvent, hc]

theorem step_of_reset {es : List Event} (hc : s.channel = .reset :: es) :
    step s = .next (resetEvent (s.withChannel es)) := by
  simp [step, takeEvent, hc, State.withChannel]

/-- From the invariant a step completes or is refused for one of the five reasons. -/
theorem step_answersBySpec (h : MachineInv s) : AnswersBySpec (step s) := by
  match hc : s.channel with
  | [] => exact .inl ⟨s, step_of_channel_nil hc⟩
  | .reset :: es => exact .inl ⟨_, step_of_reset hc⟩
  | .simultaneous w₁ w₂ :: es => exact .inr ⟨_, step_of_simultaneous hc, .inr (.inr (.inr (.inr rfl)))⟩
  | .command w :: es =>
    cases hd : decode w with
    | command i =>
      rw [step_command hc hd]
      exact exec_answersBySpec i (h.withChannel es)
    | reserved => exact .inr ⟨_, step_of_decode_eq_reserved hc hd, .inr (.inr (.inr (.inl rfl)))⟩

/-- Settles O50: a step that answers by the spec is no fault. -/
theorem onlyTheFiveRefusals : Obligations.OnlyTheFiveRefusals := by
  intro s hinv
  obtain ⟨t, ht⟩ | ⟨x, hx, hspec⟩ := step_answersBySpec hinv
  · rw [ht]
    exact ⟨nofun, nofun⟩
  · rw [hx]
    exact ⟨nofun, fun r hr => Host.Outcome.refused.inj hr ▸ hspec⟩

end

end Sys2Proof.Machine
end

section
/-! What each kind of step leaves unchanged (10_state.md R23, R28, R30, R36; 20_memory.md R51). -/

namespace Sys2Proof.Machine

section
variable {s t : State}

/-- R130, R131, R150: no command writes the channel. -/
theorem exec_channel {i : Instr} (h : exec i s = .next t) : t.channel = s.channel := by
  cases i with
  | init => cases h; rfl
  | upd b => exact (exec_upd_byteTaken h).channel
  | final => exact (exec_final_finalized h).channel

/-- Settles O27: `INIT` enters a session, `FINAL` leaves it, reset ends it; the wait and `UPD` keep the phase. -/
theorem phaseChangesOnlyByItsCommands : Obligations.PhaseChangesOnlyByItsCommands := by
  intro s t hstep hne
  obtain ⟨-, rfl⟩ | ⟨i, es, hc, hexec⟩ | ⟨es, hc, rfl⟩ := step_next_cases hstep
  · exact absurd rfl hne
  · cases i with
    | init =>
      cases hexec
      exact .inl ⟨es, hc, rfl⟩
    | upd b =>
      have htaken := exec_upd_byteTaken hexec
      exact absurd (htaken.phase.trans htaken.wasActive.symm) hne
    | final =>
      have hfinal := exec_final_finalized hexec
      exact .inr (.inl ⟨es, hc, hfinal.wasActive, hfinal.phase⟩)
  · exact .inr (.inr ⟨es, hc, resetEvent_phase _⟩)

/-- Settles O28: the wait and `FINAL` keep `BITLEN`. -/
theorem bitlenChangesOnlyByInitAndUpd : Obligations.BitlenChangesOnlyByInitAndUpd := by
  intro s t hstep hne
  obtain ⟨-, rfl⟩ | ⟨i, es, hc, hexec⟩ | ⟨es, hc, rfl⟩ := step_next_cases hstep
  · exact absurd rfl hne
  · cases i with
    | init =>
      cases hexec
      exact .inl ⟨es, hc, rfl⟩
    | upd b =>
      have htaken := exec_upd_byteTaken hexec
      exact .inr (.inl ⟨b, es, hc, htaken.wasActive, htaken.bitlen⟩)
    | final => exact absurd (exec_final_finalized hexec).bitlen hne
  · exact .inr (.inr ⟨es, hc⟩)

/-- Settles O29: the wait, and `UPD` where no block fills, keep `H`. -/
theorem hashChangesOnlyByInitAndCompression : Obligations.HashChangesOnlyByInitAndCompression := by
  intro s t hstep hne
  obtain ⟨-, rfl⟩ | ⟨i, es, hc, hexec⟩ | ⟨es, hc, rfl⟩ := step_next_cases hstep
  · exact absurd rfl hne
  · cases i with
    | init =>
      cases hexec
      exact .inl ⟨es, hc, rfl⟩
    | upd b =>
      obtain hsame | ⟨hfull, blk, hhash⟩ := exec_upd_hash hexec
      · exact absurd hsame hne
      · exact .inr (.inl ⟨b, es, blk, hc, hfull, hhash⟩)
    | final =>
      obtain ⟨blks, hlen, hhash⟩ := (exec_final_finalized hexec).hash
      exact .inr (.inr (.inl ⟨es, blks, hc, hlen, hhash⟩))
  · exact .inr (.inr (.inr ⟨es, hc⟩))

/-- Settles O30: `UPD` writes the cell at `BUFLEN`, and the padding of `FINAL` writes at `BUFLEN` and above. -/
theorem commandsWriteOnlyTheirBufferBytes : Obligations.CommandsWriteOnlyTheirBufferBytes := by
  refine fun s t => ⟨fun h a => ?_, fun b h a ha => ?_, fun h a ha => ?_⟩
  · cases h
    rfl
  · rw [(exec_upd_byteTaken h).buf, read_counted, if_neg ha]
  · obtain ⟨u, hu, hbuf⟩ := (exec_final_finalized h).buf
    rw [hbuf, (padBuffer_writesAbove hu).read a ha]

/-- Settles O31: only the flush writes `W`, `a..h` and the draws, and `UPD` reaches it at 63 pending bytes alone. -/
theorem transientsAndChannelFrame : Obligations.TransientsAndChannelFrame := by
  refine fun s t => ⟨fun i => exec_channel, fun h => ?_, fun b h h63 => ?_⟩
  · cases h
    exact ⟨rfl, rfl, rfl⟩
  · obtain ⟨-, -, -, ⟨-, rfl⟩ | ⟨hfull, -⟩⟩ := exec_upd_eq_next.1 h
    · exact ⟨rfl, rfl, rfl⟩
    · exact absurd hfull h63

end

end Sys2Proof.Machine
end

section
/-! The step by the head of the channel, and runs of steps (30_encoding.md R70, 60_exceptions.md R176, R182,
70_reset_and_hazards.md R190, R191). -/

namespace Sys2Proof.Machine

/-- Settles O4, from the words of the commands and the reserved words of R76. -/
theorem writtenOutWordsDecode : Obligations.WrittenOutWordsDecode :=
  ⟨decode_encode .init, decode_encode (.upd 0x61#8), decode_encode (.upd 0xff#8), decode_encode .final,
    (decode_eq_reserved_iff _).2 (.inr (.inl (by decide))), (decode_eq_reserved_iff _).2 (.inr (.inr (by decide)))⟩

/-- Settles O6: every command is well formed, and the step asks for no more than its word. -/
theorem stepRunsTheDecodedCommand : Obligations.StepRunsTheDecodedCommand := fun _ _ _ _ hc hd _ => step_command hc hd

/-- R79: a command's word in two whole bytes is that word. -/
theorem ofNat_toNat_encode_mod (i : Instr) : BitVec.ofNat 10 ((encode i).toNat % 2 ^ 16) = encode i := by
  apply BitVec.eq_of_toNat_eq
  rw [BitVec.toNat_ofNat]
  omega

/-- A command's word, read as a row of the table, is that command. -/
theorem decodeTableWord_encode (i : Instr) : decodeTableWord 16 (encode i).toNat = some i := by
  rw [decodeTableWord, if_pos (by omega), ofNat_toNat_encode_mod, decode_encode]

/-- A command's word placed by the fetch interface stands at the head of the channel. -/
theorem withFetchWord_encode (s : State) (i : Instr) :
    s.withFetchWord 16 (encode i).toNat = s.withChannel (.command (encode i) :: s.channel) := by
  rw [State.withFetchWord, ofNat_toNat_encode_mod]
  rfl

/-- Settles O7: the step takes the placed word off again. -/
theorem fetchedWordRunsNext : Obligations.FetchedWordRunsNext := by
  refine fun s i => ⟨decodeTableWord_encode i, ?_⟩
  rw [withFetchWord_encode, step_encode]
  rfl

/-- Settles O8: an empty channel has no event to take. -/
theorem idleBlockWaits : Obligations.IdleBlockWaits := fun _ => step_of_channel_nil

/-- Settles O10: neither of the two words is decoded. -/
theorem simultaneousCommandsAreRefused : Obligations.SimultaneousCommandsAreRefused :=
  fun _ _ _ _ => step_of_simultaneous

/-- R31. -/
theorem digestValid_eq_true_iff (s : State) : s.digestValid = true ↔ s.phase = .spent := by
  rw [State.digestValid]
  cases s.phase <;> simp

theorem digestValid_eq_false {s : State} (h : s.phase ≠ .spent) : s.digestValid = false := by
  rwa [← Bool.not_eq_true, digestValid_eq_true_iff]

/-- Settles O11: after reset there is no session, for which `UPD` and `FINAL` ask. -/
theorem resetEventEndsTheSession : Obligations.ResetEventEndsTheSession := by
  intro s es hc
  have hphase := resetEvent_phase (s.withChannel es)
  exact ⟨_, step_of_reset hc, hphase, digestValid_eq_false (by simp), rfl, fun _ => rfl,
    fun b => exec_of_phase_none (i := .upd b) nofun hphase, exec_of_phase_none nofun hphase⟩

/-- Settles O12: there is no session, and no cell. -/
theorem resetStateHoldsNoSession : Obligations.ResetStateHoldsNoSession :=
  ⟨rfl, digestValid_eq_false nofun, Memory.read_nil⟩

/-- Settles O13, by induction on the commands. -/
theorem channelRunsCommandsInOrder : Obligations.ChannelRunsCommandsInOrder := runSteps_channelOf

/-- Settles O14: the run is cut at the refusal, and what follows a refusal is that refusal. -/
theorem refusalIsSticky : Obligations.RefusalIsSticky := by
  intro j k s r h
  rw [runSteps_add, h, andThen_refused]

/-- Settles O15: the answer of `INIT` has the fields that a second `INIT` would write. -/
theorem initStartsAFreshSession : Obligations.InitStartsAFreshSession := by
  refine ⟨rfl, fun s => ⟨rfl, fun t h => ?_⟩⟩
  cases h
  exact ⟨rfl, rfl⟩

end Sys2Proof.Machine
end

section
/-! The digest as an output (10_state.md R31, R32): it is valid exactly after `FINAL`, and stays until `INIT` or reset. -/

namespace Sys2Proof.Machine

/-- Settles O32: the phase each command leaves decides. -/
theorem digestValidFollowsPhase : Obligations.DigestValidFollowsPhase := by
  refine ⟨digestValid_eq_true_iff, fun s t =>
    ⟨fun h => (exec_final_finalized h).digestValid, fun h => ?_, fun b h => ?_, digestValid_eq_false (by simp)⟩⟩
  · cases h
    exact digestValid_eq_false nofun
  · exact digestValid_eq_false (by simp [(exec_upd_byteTaken h).phase])

theorem sampleDigest_of_digestValid {s : State} (h : s.digestValid = true) (n : Nat) :
    s.sampleDigest n = digestOf s.hash := by
  rw [State.sampleDigest, if_pos h]

/-- Settles O33: the eight words of the digest, from the top. -/
theorem validDigestIsTheHashState : Obligations.ValidDigestIsTheHashState := by
  intro s n hvalid
  have hwords := hashWords_eq_map s.hash
  simp only [hashWords, List.range_succ, List.range_zero, List.nil_append, List.cons_append, List.map_cons,
    List.map_nil, List.cons.injEq, and_true] at hwords
  obtain ⟨h0, h1, h2, h3, h4, h5, h6, h7⟩ := hwords
  rw [sampleDigest_of_digestValid hvalid]
  exact ⟨h0.symm, h1.symm, h2.symm, h3.symm, h4.symm, h5.symm, h6.symm, h7.symm⟩

/-- In a spent session every event but `INIT` and reset is refused, so a step that answers is a wait. -/
theorem step_of_phase_spent {s t : State} (hphase : s.phase = .spent)
    (hhead : ∀ e ∈ s.channel.take 1, e ≠ .reset ∧ e ≠ .command (encode .init)) (h : step s = .next t) :
    s.channel = [] ∧ t = s := by
  obtain hidle | ⟨i, es, hc, hexec⟩ | ⟨es, hc, -⟩ := step_next_cases h
  · exact hidle
  · have hi : i ≠ .init := by
      rintro rfl
      exact (hhead _ (by simp [hc])).2 rfl
    rw [exec_of_phase_spent (s := s.withChannel es) hi hphase] at hexec
    cases hexec
  · exact absurd rfl (hhead _ (by simp [hc])).1

/-- So a run that answers has waited throughout. -/
theorem runSteps_of_phase_spent {k : Nat} {s t : State} (hphase : s.phase = .spent)
    (hevents : ∀ e ∈ s.channel.take k, e ≠ .reset ∧ e ≠ .command (encode .init)) (h : runSteps k s = .next t) :
    t = s := by
  induction k with
  | zero => cases h; rfl
  | succ k ih =>
    obtain ⟨u, hu, hrest⟩ := andThen_eq_next.1 h
    have hhead : ∀ e ∈ s.channel.take 1, e ≠ .reset ∧ e ≠ .command (encode .init) := fun e he =>
      hevents e (List.take_subset_take_left _ (by omega) he)
    obtain ⟨hc, rfl⟩ := step_of_phase_spent hphase hhead hu
    exact ih (by simp [hc]) hrest

/-- Settles O34: the run ends in the spent state it began in. -/
theorem digestStaysUntilInitOrReset : Obligations.DigestStaysUntilInitOrReset := by
  intro k n s t hphase hevents hrun
  obtain rfl := runSteps_of_phase_spent hphase hevents hrun
  exact ⟨(digestValid_eq_true_iff _).2 hphase, rfl, rfl⟩

end Sys2Proof.Machine
end

section
/-! The textual forms of a command (30_encoding.md R81), blanks as in log entry 9. -/

namespace Sys2Proof.Machine

/-- R106 read back: each nibble's digit has its value. -/
theorem hexValue_hexDigit : ∀ n : BitVec 4, hexValue (hexDigit n) = some n.toNat := by decide

/-- A byte is its two nibbles. -/
theorem ofNat_nibbles (b : Byte) : BitVec.ofNat 8 (16 * (b.extractLsb' 4 4).toNat + (b.extractLsb' 0 4).toNat) = b := by
  apply BitVec.eq_of_toNat_eq
  simp only [BitVec.extractLsb'_toNat, BitVec.toNat_ofNat, Nat.shiftRight_eq_div_pow]
  omega

/-- The hexadecimal form of a byte operand. -/
theorem parseByte_hexadecimal (b : Byte) (cs : List Char) :
    parseByte ('0' :: 'x' :: hexDigit (b.extractLsb' 4 4) :: hexDigit (b.extractLsb' 0 4) :: cs) = some (b, cs) := by
  simp only [parseByte, hexValue_hexDigit, ofNat_nibbles]

/-- A line of the mnemonic `UPD` and an operand behind a space. -/
theorem assembleLine_upd (cs : List Char) :
    assembleLine ('U' :: 'P' :: 'D' :: ' ' :: cs) = finishLine (fun b => [.upd b]) (parseByte (skipBlanks cs)) := rfl

/-- The hexadecimal form begins with no blank. -/
theorem skipBlanks_hexadecimal (cs : List Char) : skipBlanks ('0' :: cs) = '0' :: cs := rfl

/-- Settles O5: the hexadecimal operand for every byte; the other lines are fixed. -/
theorem assemblerReadsCommands : Obligations.AssemblerReadsCommands := by
  refine ⟨fun b => ?_, by decide, by decide, by decide, by decide, by decide⟩
  rw [assembleLine_upd, skipBlanks_hexadecimal, parseByte_hexadecimal]
  rfl

end Sys2Proof.Machine
end

section
/-! The bit operations bit by bit (40_bitops.md R90, R94 to R99), the constant tables (R22, R100) and `TRANSFORM` as the
pure function (41_compress.md R116). -/

namespace Sys2Proof.Machine

/-- A sum of words does not depend on their order. -/
theorem sum32_perm {xs ys : List Word} (h : xs.Perm ys) : sum32 xs = sum32 ys := by
  induction h with
  | nil => rfl
  | cons x _ ih => rw [sum32_cons, sum32_cons, ih]
  | swap x y xs => simp only [sum32_cons, add_left_comm]
  | trans _ _ ih₁ ih₂ => rw [ih₁, ih₂]

/-- Settles O37: one sum as a number, several in any order. -/
theorem additionIsModulo2To32 : Obligations.AdditionIsModulo2To32 := ⟨toNat_add32, fun _ _ => sum32_perm⟩

theorem getLsbD_ch (x y z : Word) {i : Nat} (hi : i < 32) :
    (ch x y z).getLsbD i = if x.getLsbD i then y.getLsbD i else z.getLsbD i := by
  rw [ch, BitVec.getLsbD_xor, BitVec.getLsbD_and, BitVec.getLsbD_and, BitVec.getLsbD_not]
  cases x.getLsbD i <;> simp [hi]

theorem getLsbD_maj (x y z : Word) (i : Nat) :
    (maj x y z).getLsbD i = true ↔ 2 ≤ (x.getLsbD i).toNat + (y.getLsbD i).toNat + (z.getLsbD i).toNat := by
  simp only [maj, BitVec.getLsbD_xor, BitVec.getLsbD_and]
  generalize x.getLsbD i = p, y.getLsbD i = q, z.getLsbD i = r
  revert p q r
  decide

/-- Settles O40, bit by bit. -/
theorem chooseAndMajorityBitByBit : Obligations.ChooseAndMajorityBitByBit := fun x y z i hi =>
  ⟨getLsbD_ch x y z hi, getLsbD_maj x y z i⟩

/-- A shift brings in zeros where the word has no bit (R93). -/
theorem getLsbD_shr_eq_and (x : Word) (n i : Nat) :
    (shr x n).getLsbD i = (decide (i + n ≤ 31) && x.getLsbD (i + n)) := by
  rw [getLsbD_shr]
  by_cases hin : i + n ≤ 31
  · simp [hin]
  · simp [hin, BitVec.getLsbD_of_ge x (i + n) (by omega)]

/-- Settles O41: the bits of the rotations and of the shift, put together by the exclusive or. -/
theorem sigmaFunctionsBitByBit : Obligations.SigmaFunctionsBitByBit := by
  intro x i hi
  simp only [ep0, ep1, sig0, sig1, BitVec.getLsbD_xor, getLsbD_rotr x _ hi, getLsbD_shr_eq_and, and_self]

/-- Settles O43: the tables are finite, and each word is held to its two inequalities. -/
theorem constantTablesAreTheRootsOfPrimes : Obligations.ConstantTablesAreTheRootsOfPrimes := by
  refine ⟨?_, ?_⟩
  · decide +kernel
  · decide +kernel

/-- Settles O47: `TRANSFORM` is one update of the three fields it writes. -/
theorem transformComputesCompress : Obligations.TransformComputesCompress := by
  refine fun blk s => ⟨transform_hash blk s, ?_⟩
  rw [transform_eq]

end Sys2Proof.Machine
end

section
/-! Whole sessions (42_ingest.md R130 to R132, 43_finalize.md R160, R161): by the bytes taken, on the channel, and which
sequences of commands are defined (70_reset_and_hazards.md R193). -/

namespace Sys2Proof.Machine

section
variable {m : List Byte} {s t : State}

/-- Settles O51: each of the two commands by its effect on the session. -/
theorem sessionHoldsTheBytesTaken : Obligations.SessionHoldsTheBytesTaken :=
  ⟨exec_init_inSessionWith, fun _ _ _ h hfits => h.exec_upd_next hfits⟩

/-- The channel does not enter the session. -/
theorem InSessionWith.withChannel (h : InSessionWith m s) (es : List Event) : InSessionWith m (s.withChannel es) :=
  ⟨h.phase, h.fits, h.bitlen, h.buflen, h.pending, h.hash⟩

/-- No sequence of commands writes the channel. -/
theorem execAll_channel {is : List Instr} (h : execAll is s = .next t) : t.channel = s.channel := by
  induction is generalizing s with
  | nil => cases h; rfl
  | cons i is ih =>
    obtain ⟨u, hu, hrest⟩ := andThen_eq_next.1 h
    rw [ih hrest, exec_channel hu]

/-- Settles O52: the run is the chunk's `UPD` commands in order, and they leave the rest of the channel. -/
theorem updateTakesAChunk : Obligations.UpdateTakesAChunk := by
  intro s m c es h hfits
  obtain ⟨t, ht, hsession⟩ := (h.withChannel es).execAll_expandUpdate_next c hfits
  refine ⟨t, ?_, hsession, execAll_channel ht⟩
  have hrun := runSteps_channelOf (expandUpdate c) es s
  rwa [expandUpdate, List.length_map, ← expandUpdate, ht] at hrun

/-- `INIT; UPDATE m; FINAL` is `FINAL` in the session of `m`. -/
theorem execAll_expandHash_eq_final (s : State) (hfits : 8 * m.length < 2 ^ 64) :
    ∃ v, InSessionWith m v ∧ execAll (expandHash m) s = exec .final v := by
  obtain ⟨u, hu, hsession⟩ := exec_init_inSessionWith s
  obtain ⟨v, hv, hsession⟩ := hsession.execAll_expandUpdate_next m (by simpa using hfits)
  refine ⟨v, by simpa using hsession, ?_⟩
  rw [expandHash, execAll, hu, andThen_next, execAll_append, hv, andThen_next, execAll]
  cases exec .final v <;> rfl

/-- Settles O53: the session's last command is `FINAL` with the bytes of the message taken. -/
theorem sessionComputesSha256 : Obligations.SessionComputesSha256 := by
  intro s m es hfits
  obtain ⟨v, hsession, heq⟩ := execAll_expandHash_eq_final (s.withChannel es) hfits
  obtain ⟨t, ht, hhash, hphase⟩ := hsession.exec_final_next
  have hfinal := exec_final_finalized ht
  have hall : execAll (expandHash m) (s.withChannel es) = .next t := heq.trans ht
  refine ⟨t, ?_, hhash, hphase, hfinal.digestValid, by rw [hfinal.bitlen, hsession.bitlen], hfinal.buflen,
    execAll_channel hall, ?_, by rw [hhash]⟩
  · have hrun := runSteps_channelOf (expandHash m) es s
    rwa [length_expandHash, hall] at hrun
  · rw [State.observe, hfinal.digestValid, if_pos rfl, hhash]

/-- Settles O56: the zeros bring the length to a whole number of blocks, and there are fewer than 64 of them. -/
theorem paddedLength : Obligations.PaddedLength := by
  intro m
  obtain ⟨hlt, hmod⟩ := padZeros_spec m.length
  have hlen := length_pad m
  refine ⟨padZeros_eq_ite m.length, by omega, by omega, by omega, ?_⟩
  rw [blocksOf, List.length_map, List.length_range, transformCount]
  omega

/-- What a state after a defined sequence of commands is, by the point the sequence has reached (R193). -/
def StandsAt : SessionPoint → State → Prop
  | .outside, s => s.phase ≠ .active
  | .inside n, s => ∃ m, m.length = n ∧ InSessionWith m s

/-- Outside a session `UPD` and `FINAL` do not complete. -/
theorem exec_ne_next_of_not_active {i : Instr} (hi : i ≠ .init) (hphase : s.phase ≠ .active) :
    exec i s ≠ .next t := by
  obtain ⟨k, hk⟩ := exec_eq_inSession hi s
  rw [hk]
  exact fun h => hphase (inSession_eq_next.1 h).1

/-- A command completes where R193 lets it stand, and leaves the point R193 says. -/
theorem StandsAt.exec_next {p q : SessionPoint} {i : Instr} (h : StandsAt p s) (hq : p.next i = some q) :
    ∃ t, exec i s = .next t ∧ StandsAt q t := by
  cases i with
  | init =>
    obtain rfl : SessionPoint.inside 0 = q := by cases p <;> exact Option.some.inj hq
    obtain ⟨t, ht, hsession⟩ := exec_init_inSessionWith s
    exact ⟨t, ht, [], rfl, hsession⟩
  | upd b =>
    cases p with
    | outside => cases hq
    | inside n =>
      obtain ⟨m, rfl, hsession⟩ := h
      rw [SessionPoint.next] at hq
      split_ifs at hq with hfew
      cases hq
      obtain ⟨t, ht, hsession⟩ := hsession.exec_upd_next (b := b) (by omega)
      exact ⟨t, ht, m ++ [b], by simp, hsession⟩
  | final =>
    cases p with
    | outside => cases hq
    | inside n =>
      cases hq
      obtain ⟨m, -, hsession⟩ := h
      obtain ⟨t, ht, -, hphase⟩ := hsession.exec_final_next
      exact ⟨t, ht, by simp [StandsAt, hphase]⟩

/-- Where R193 does not let a command stand, it does not complete. -/
theorem StandsAt.exec_ne_next {p : SessionPoint} {i : Instr} (h : StandsAt p s) (hnone : p.next i = none) :
    exec i s ≠ .next t := by
  cases p with
  | outside =>
    refine exec_ne_next_of_not_active ?_ h
    rintro rfl
    cases hnone
  | inside n =>
    obtain ⟨m, rfl, hsession⟩ := h
    cases i with
    | init => cases hnone
    | final => cases hnone
    | upd b =>
      rw [SessionPoint.next] at hnone
      split_ifs at hnone with hfew
      have hbitlen := hsession.bitlen
      rw [exec_upd_of_ceiling hsession.phase (by omega)]
      exact nofun

/-- R193, a sequence taken on by a command that may stand there. -/
theorem sessionsFrom_cons_of_next {p q : SessionPoint} {i : Instr} (is : List Instr) (hq : p.next i = some q) :
    sessionsFrom p (i :: is) = sessionsFrom q is := by
  have hwf : i.wf = true := by cases i <;> rfl
  simp only [sessionsFrom, hq, hwf, Bool.true_and]

/-- R193, a sequence that a command ends. -/
theorem sessionsFrom_cons_of_next_eq_none {p : SessionPoint} {i : Instr} (is : List Instr) (hnone : p.next i = none) :
    sessionsFrom p (i :: is) = false := by
  simp only [sessionsFrom, hnone]

/-- From the point reached, the commands complete exactly where R193 lets the whole sequence follow. -/
theorem StandsAt.execAll_completes_iff {p : SessionPoint} (is : List Instr) (h : StandsAt p s) :
    (∃ t, execAll is s = .next t) ↔ sessionsFrom p is = true := by
  induction is generalizing p s with
  | nil => exact ⟨fun _ => rfl, fun _ => ⟨s, rfl⟩⟩
  | cons i is ih =>
    cases hq : p.next i with
    | none =>
      rw [sessionsFrom_cons_of_next_eq_none is hq]
      refine ⟨fun ⟨t, ht⟩ => ?_, nofun⟩
      obtain ⟨u, hu, -⟩ := andThen_eq_next.1 ht
      exact absurd hu (h.exec_ne_next hq)
    | some q =>
      obtain ⟨u, hu, hstands⟩ := h.exec_next hq
      rw [sessionsFrom_cons_of_next is hq, execAll, hu, andThen_next, ih hstands]

end

/-- Settles O57: after reset there is no session, and the run executes the commands. -/
theorem definedRunsAreTheSessions : Obligations.DefinedRunsAreTheSessions := by
  intro is
  have hrun := runSteps_channelOf is [] State.reset
  rw [List.append_nil] at hrun
  have hreset : StandsAt .outside (State.reset.withChannel []) := nofun
  rw [sessionsWf, ← hreset.execAll_completes_iff is, ← hrun]
  rfl

end Sys2Proof.Machine
end

section
/-! Banks of blocks that share no state (60_exceptions.md R186). -/

namespace Sys2Proof.Machine

section
variable {α β γ : Type}

theorem andThen_assoc (r : Answer α) (f : α → Answer β) (g : β → Answer γ) :
    andThen (andThen r f) g = andThen r fun a => andThen (f a) g := by
  cases r <;> rfl

end

/-- A schedule takes the run of each block on by the steps it gives that block. -/
theorem runInstances_getElem {n : Nat} (ks : List (Fin n)) (bank : Bank n) (i : Fin n) :
    (runInstances ks bank)[i.val] = andThen bank[i.val] (runSteps (ks.count i)) := by
  induction ks generalizing bank with
  | nil => rw [runInstances_nil]; cases bank[i.val] <;> rfl
  | cons k ks ih =>
    rw [runInstances_cons, ih]
    by_cases hk : i = k
    · subst hk
      rw [stepInstance_same, andThen_assoc, List.count_cons_self]
      rfl
    · rw [stepInstance_other bank k i.isLt (by omega), List.count_cons_of_ne (Ne.symm hk)]

/-- Settles O58: the run of a block begins with its own state. -/
theorem instancesRunIndependently : Obligations.InstancesRunIndependently := by
  intro n ks states i
  rw [runInstances_getElem, Bank.start_getElem, andThen_next]

end Sys2Proof.Machine
end
